-- ==== Sys2Proof/Word.lean ====
section
/-! DEFINITION. The word types of Lab1 CORE (00_scope R2: registers, `HI`, `LO`, `PC` and addresses have 32 bits,
the addressable unit is the 8-bit byte). Arithmetic on a `Word` is that of `BitVec 32`: addition, subtraction and
left shift wrap modulo 2^32 (00_scope R4). -/

namespace Sys2Proof

/-- The addressable unit (00_scope R2). -/
abbrev Byte := BitVec 8

/-- A register, an address, an instruction word or a memory word (00_scope R2). -/
abbrev Word := BitVec 32

/-- The 64-bit product pattern of MULT and MULTU (43_muldiv_hilo R105, R106). -/
abbrev DoubleWord := BitVec 64

/-- A general register number, 0 to 31 (10_state R10). Register 0 is an ordinary register (10_state R11). -/
abbrev Reg := Fin 32

end Sys2Proof
end

