-- ==== Sys2Proof/Syntax.lean ====
section
/-! DEFINITION. The instructions of Lab1 CORE: one constructor per row of spec/opcode_table.json, the closed list of
00_scope R1. Operands stand in the order of the assembler forms of 30_encoding R62, as far as an instruction has them;
fields an instruction ignores (30_encoding R59) are no operands. Immediates and targets are the raw fields
(30_encoding R57). The decoder's `Unknown` is not an instruction of the table; it is `Decoded.unknown` in Decode.lean. -/

namespace Sys2Proof

inductive Instr where
  -- 41_alu_register: OP rd, rs, rt
  | add (rd rs rt : Reg)
  | addu (rd rs rt : Reg)
  | sub (rd rs rt : Reg)
  | subu (rd rs rt : Reg)
  | and (rd rs rt : Reg)
  | or (rd rs rt : Reg)
  | nor (rd rs rt : Reg)
  | xor (rd rs rt : Reg)
  | slt (rd rs rt : Reg)
  -- 42_shifts: OP rd, rt, shamt
  | sll (rd rt : Reg) (shamt : BitVec 5)
  | srl (rd rt : Reg) (shamt : BitVec 5)
  | sra (rd rt : Reg) (shamt : BitVec 5)
  -- 43_muldiv_hilo: OP rs, rt; OP rd; OP rs
  | mult (rs rt : Reg)
  | multu (rs rt : Reg)
  | div (rs rt : Reg)
  | divu (rs rt : Reg)
  | mfhi (rd : Reg)
  | mflo (rd : Reg)
  | mthi (rs : Reg)
  | mtlo (rs : Reg)
  -- 44_jump_register
  | jr (rs : Reg)
  | jalr (rd rs : Reg)
  -- 45_alu_immediate: OP rt, rs, imm; LUI rt, imm
  | addi (rt rs : Reg) (imm : BitVec 16)
  | addiu (rt rs : Reg) (imm : BitVec 16)
  | andi (rt rs : Reg) (imm : BitVec 16)
  | ori (rt rs : Reg) (imm : BitVec 16)
  | xori (rt rs : Reg) (imm : BitVec 16)
  | slti (rt rs : Reg) (imm : BitVec 16)
  | lui (rt : Reg) (imm : BitVec 16)
  -- 46_load_store: OP rt, imm(rs)
  | lb (rt rs : Reg) (imm : BitVec 16)
  | lh (rt rs : Reg) (imm : BitVec 16)
  | lw (rt rs : Reg) (imm : BitVec 16)
  | sb (rt rs : Reg) (imm : BitVec 16)
  | sh (rt rs : Reg) (imm : BitVec 16)
  | sw (rt rs : Reg) (imm : BitVec 16)
  -- 47_branch_jump: OP rs, rt, offset; OP rs, offset; OP target
  | beq (rs rt : Reg) (imm : BitVec 16)
  | bne (rs rt : Reg) (imm : BitVec 16)
  | bgtz (rs : Reg) (imm : BitVec 16)
  | blez (rs : Reg) (imm : BitVec 16)
  | bgez (rs : Reg) (imm : BitVec 16)
  | bltz (rs : Reg) (imm : BitVec 16)
  | j (target : BitVec 26)
  | jal (target : BitVec 26)
  -- 48_syscall_unknown
  | syscall
  deriving DecidableEq, Repr

end Sys2Proof
end

