-- ==== Sys2Proof/Config.lean ====
section
/-! DEFINITION. What an implementation of Lab1 CORE fixes: the memory map (00_scope R3, 20_memory R31). The map is an
open parameter of the spec; the machine's state carries one `Config` that no step changes, so a statement about every
state is a statement about every map (log 1). -/

namespace Sys2Proof

/-- A memory region: it owns the byte addresses from `base` up to, not including, `base + size` (20_memory R31).
Natural numbers, because `base + size` may be 2^32 itself. -/
structure Region where
  base : Nat
  size : Nat
  deriving DecidableEq, Repr

/-- The parameters `REGIONS` and `MEM_TEXT_BEGIN` of 00_scope R3. The constraints R3 and 20_memory R31 put on them are
`Config.wf` in WellFormed.lean. -/
structure Config where
  regions   : List Region
  textBegin : Word
  deriving DecidableEq, Repr

/-- The test configuration TC of 95_test_vectors section 0: a text region of 0x1000 bytes at 0x00400000 and a data region
of 0x1000 bytes at 0x10010000. DESIGN CHOICE (log 1, unsafe for statements about `State.reset` alone): the spec gives
no map, and this is the one concrete map its own vectors use. -/
def Config.tc : Config :=
  { regions   := [⟨0x00400000, 0x1000⟩, ⟨0x10010000, 0x1000⟩],
    textBegin := 0x00400000#32 }

end Sys2Proof
end

