-- ==== Sys2Proof/WellFormed.lean ====
section
/-! DEFINITION. What counts as a well-formed term. The constraints the spec puts on its parameters (00_scope R3,
20_memory R31) are checks on a `Config`, one Bool each. An instruction's operand types are exactly as wide as its
fields (30_encoding R51) and every value of a field is legal (30_encoding R58, R59), so every `Instr` is well formed:
there is no ill-formed instruction term for a check to refuse. -/

namespace Sys2Proof

/-- Every `base` is a multiple of 4 (00_scope R3). -/
def Config.basesAligned (c : Config) : Bool := c.regions.all fun r => r.base % 4 == 0

/-- Every `size` is a multiple of 4 (00_scope R3). -/
def Config.sizesAligned (c : Config) : Bool := c.regions.all fun r => r.size % 4 == 0

/-- Every `size` is positive (00_scope R3). -/
def Config.sizesPositive (c : Config) : Bool := c.regions.all fun r => decide (0 < r.size)

/-- `base + size <= 2^32` for every region: no region wraps (00_scope R3). -/
def Config.regionsFit (c : Config) : Bool := c.regions.all fun r => decide (r.base + r.size ≤ 2 ^ 32)

/-- Two regions own no address in common (20_memory R31). -/
def Region.disjoint (r q : Region) : Bool := decide (r.base + r.size ≤ q.base ∨ q.base + q.size ≤ r.base)

/-- The regions are pairwise disjoint (00_scope R3). -/
def Config.regionsDisjoint (c : Config) : Bool := decide (c.regions.Pairwise fun r q => r.disjoint q = true)

/-- `MEM_TEXT_BEGIN` is the base of one member of `REGIONS` (00_scope R3). -/
def Config.textIsARegion (c : Config) : Bool := c.regions.any fun r => r.base == c.textBegin.toNat

/-- The constraints "the model must assume" on the parameters (00_scope R3, 20_memory R31; log 8). -/
def Config.wf (c : Config) : Bool :=
  c.basesAligned && c.sizesAligned && c.sizesPositive && c.regionsFit && c.regionsDisjoint && c.textIsARegion

/-- Every instruction is well formed: its operand types admit exactly the values of its fields. -/
def Instr.wellFormed : Instr → Bool := fun _ => true

end Sys2Proof
end

