-- ==== Sys2Proof/Decode.lean ====
section
/-! DEFINITION. Decoding and encoding (30_encoding R50 to R61). `decode` is total on all 2^32 words and reads nothing
but the word (R58, R60); a word that is none of the 44 instructions gives `Decoded.unknown`. The encoder is written from
the same tables, with zeros in the fields an instruction ignores (log 10). The opcode, funct and selector numbers are
the spec's, which marks most of them as the MIPS I assignment (log 9). -/

namespace Sys2Proof

/-- What the decoder delivers: an instruction of the table, or the explicit `Unknown` variant (30_encoding R58). -/
inductive Decoded where
  | instr (i : Instr)
  | unknown
  deriving DecidableEq, Repr

/-! ### Field positions (30_encoding R51) -/

def opcodeOf (w : Word) : BitVec 6 := w.extractLsb' 26 6
def rsField (w : Word) : BitVec 5 := w.extractLsb' 21 5
def rtField (w : Word) : BitVec 5 := w.extractLsb' 16 5
def rdField (w : Word) : BitVec 5 := w.extractLsb' 11 5
def shamtOf (w : Word) : BitVec 5 := w.extractLsb' 6 5
def functOf (w : Word) : BitVec 6 := w.extractLsb' 0 6
def immOf (w : Word) : BitVec 16 := w.extractLsb' 0 16
def targetOf (w : Word) : BitVec 26 := w.extractLsb' 0 26

/-- A 5-bit field used as an index 0 to 31 (30_encoding R57). -/
def regOfField (f : BitVec 5) : Reg := ⟨f.toNat, f.isLt⟩

/-- The 5-bit field that names a register. -/
def fieldOfReg (r : Reg) : BitVec 5 := BitVec.ofNat 5 r.val

def rsOf (w : Word) : Reg := regOfField (rsField w)
def rtOf (w : Word) : Reg := regOfField (rtField w)
def rdOf (w : Word) : Reg := regOfField (rdField w)

/-! ### The decoder -/

/-- The R-format map, selected by `funct` alone (30_encoding R53). -/
def decodeRFormat (w : Word) : Decoded :=
  match functOf w with
  | 0x00#6 => .instr (.sll (rdOf w) (rtOf w) (shamtOf w))
  | 0x02#6 => .instr (.srl (rdOf w) (rtOf w) (shamtOf w))
  | 0x03#6 => .instr (.sra (rdOf w) (rtOf w) (shamtOf w))
  | 0x08#6 => .instr (.jr (rsOf w))
  | 0x09#6 => .instr (.jalr (rdOf w) (rsOf w))
  | 0x0C#6 => .instr .syscall
  | 0x10#6 => .instr (.mfhi (rdOf w))
  | 0x11#6 => .instr (.mthi (rsOf w))
  | 0x12#6 => .instr (.mflo (rdOf w))
  | 0x13#6 => .instr (.mtlo (rsOf w))
  | 0x18#6 => .instr (.mult (rsOf w) (rtOf w))
  | 0x19#6 => .instr (.multu (rsOf w) (rtOf w))
  | 0x1A#6 => .instr (.div (rsOf w) (rtOf w))
  | 0x1B#6 => .instr (.divu (rsOf w) (rtOf w))
  | 0x20#6 => .instr (.add (rdOf w) (rsOf w) (rtOf w))
  | 0x21#6 => .instr (.addu (rdOf w) (rsOf w) (rtOf w))
  | 0x22#6 => .instr (.sub (rdOf w) (rsOf w) (rtOf w))
  | 0x23#6 => .instr (.subu (rdOf w) (rsOf w) (rtOf w))
  | 0x24#6 => .instr (.and (rdOf w) (rsOf w) (rtOf w))
  | 0x25#6 => .instr (.or (rdOf w) (rsOf w) (rtOf w))
  | 0x26#6 => .instr (.xor (rdOf w) (rsOf w) (rtOf w))
  | 0x27#6 => .instr (.nor (rdOf w) (rsOf w) (rtOf w))
  | 0x2A#6 => .instr (.slt (rdOf w) (rsOf w) (rtOf w))
  | _ => .unknown

/-- Opcode 1, selected by the `rt` field (30_encoding R55). -/
def decodeOpcodeOne (w : Word) : Decoded :=
  match rtField w with
  | 0b00000#5 => .instr (.bltz (rsOf w) (immOf w))
  | 0b00001#5 => .instr (.bgez (rsOf w) (immOf w))
  | _ => .unknown

/-- The decoder: the format is selected by `opcode` alone (30_encoding R52), then R53, R55, R54 and R56 apply. -/
def decode (w : Word) : Decoded :=
  match opcodeOf w with
  | 0x00#6 => decodeRFormat w
  | 0x01#6 => decodeOpcodeOne w
  | 0x02#6 => .instr (.j (targetOf w))
  | 0x03#6 => .instr (.jal (targetOf w))
  | 0x04#6 => .instr (.beq (rsOf w) (rtOf w) (immOf w))
  | 0x05#6 => .instr (.bne (rsOf w) (rtOf w) (immOf w))
  | 0x06#6 => .instr (.blez (rsOf w) (immOf w))
  | 0x07#6 => .instr (.bgtz (rsOf w) (immOf w))
  | 0x08#6 => .instr (.addi (rtOf w) (rsOf w) (immOf w))
  | 0x09#6 => .instr (.addiu (rtOf w) (rsOf w) (immOf w))
  | 0x0A#6 => .instr (.slti (rtOf w) (rsOf w) (immOf w))
  | 0x0C#6 => .instr (.andi (rtOf w) (rsOf w) (immOf w))
  | 0x0D#6 => .instr (.ori (rtOf w) (rsOf w) (immOf w))
  | 0x0E#6 => .instr (.xori (rtOf w) (rsOf w) (immOf w))
  | 0x0F#6 => .instr (.lui (rtOf w) (immOf w))
  | 0x20#6 => .instr (.lb (rtOf w) (rsOf w) (immOf w))
  | 0x21#6 => .instr (.lh (rtOf w) (rsOf w) (immOf w))
  | 0x23#6 => .instr (.lw (rtOf w) (rsOf w) (immOf w))
  | 0x28#6 => .instr (.sb (rtOf w) (rsOf w) (immOf w))
  | 0x29#6 => .instr (.sh (rtOf w) (rsOf w) (immOf w))
  | 0x2B#6 => .instr (.sw (rtOf w) (rsOf w) (immOf w))
  | _ => .unknown

/-! ### Words as bytes (20_memory R35) -/

/-- The byte of `w` at offset `k` from the word's address: byte 0 is `w[7:0]` (20_memory R33, R35). -/
def byteOfWord (w : Word) (k : Nat) : Byte := w.extractLsb' (8 * k) 8

/-- The word whose four bytes, lowest address first, are `b0 b1 b2 b3` (20_memory R33, R35). -/
def wordOfBytes (b0 b1 b2 b3 : Byte) : Word :=
  b0.setWidth 32 ||| b1.setWidth 32 <<< 8 ||| b2.setWidth 32 <<< 16 ||| b3.setWidth 32 <<< 24

/-- The bytes of an instruction word in the order they lie in memory (20_memory R35). -/
def bytesOfWord (w : Word) : List Byte := [byteOfWord w 0, byteOfWord w 1, byteOfWord w 2, byteOfWord w 3]

/-- Why a list of bytes gives no decoded word: it is shorter than the one instruction length (30_encoding R50). -/
inductive DecodeError where
  | truncated
  deriving DecidableEq, Repr

/-- Decoding of any bytes: the first word is taken, and the rest of the list comes back. -/
def decodeBytes : List Byte → Except DecodeError (Decoded × List Byte)
  | b0 :: b1 :: b2 :: b3 :: rest => .ok (decode (wordOfBytes b0 b1 b2 b3), rest)
  | _ => .error .truncated

/-- The word that the numbering of spec/opcode_table.json gives for `nbits` bits `w`: every bit above them is 0. -/
def tableWord (nbits w : Nat) : Word := BitVec.ofNat 32 (w % 2 ^ nbits)

/-- The instruction the decoder reads from a row's word, laid out as the hardware stores it; `none` where the decoder
answers `Unknown`. -/
def decodeTableWord (nbits w : Nat) : Option Instr :=
  match decodeBytes (bytesOfWord (tableWord nbits w)) with
  | .ok (.instr i, _) => some i
  | .ok (.unknown, _) => none
  | .error _ => none

/-! ### The encoder -/

/-- A field at its place: its low bit at bit `lo` of the word (30_encoding R51). -/
def placeField (f : BitVec n) (lo : Nat) : Word := f.setWidth 32 <<< lo

/-- An R-format word: `opcode` is zero (30_encoding R51, R52). -/
def encodeR (rs rt rd shamt : BitVec 5) (funct : BitVec 6) : Word :=
  placeField rs 21 ||| placeField rt 16 ||| placeField rd 11 ||| placeField shamt 6 ||| placeField funct 0

/-- An I-format word (30_encoding R51). -/
def encodeI (opcode : BitVec 6) (rs rt : BitVec 5) (imm : BitVec 16) : Word :=
  placeField opcode 26 ||| placeField rs 21 ||| placeField rt 16 ||| placeField imm 0

/-- A J-format word (30_encoding R51). -/
def encodeJ (opcode : BitVec 6) (target : BitVec 26) : Word :=
  placeField opcode 26 ||| placeField target 0

/-- `encodeR` with three register operands, `shamt` zero. -/
def encodeRdRsRt (rd rs rt : Reg) (funct : BitVec 6) : Word :=
  encodeR (fieldOfReg rs) (fieldOfReg rt) (fieldOfReg rd) 0#5 funct

/-- `encodeR` of a shift, `rs` zero. -/
def encodeShift (rd rt : Reg) (shamt : BitVec 5) (funct : BitVec 6) : Word :=
  encodeR 0#5 (fieldOfReg rt) (fieldOfReg rd) shamt funct

/-- `encodeI` with two register operands. -/
def encodeRtRsImm (opcode : BitVec 6) (rt rs : Reg) (imm : BitVec 16) : Word :=
  encodeI opcode (fieldOfReg rs) (fieldOfReg rt) imm

/-- The word of an instruction, by the opcode map of 30_encoding R53 to R56. -/
def encode : Instr → Word
  | .add rd rs rt => encodeRdRsRt rd rs rt 0x20#6
  | .addu rd rs rt => encodeRdRsRt rd rs rt 0x21#6
  | .sub rd rs rt => encodeRdRsRt rd rs rt 0x22#6
  | .subu rd rs rt => encodeRdRsRt rd rs rt 0x23#6
  | .and rd rs rt => encodeRdRsRt rd rs rt 0x24#6
  | .or rd rs rt => encodeRdRsRt rd rs rt 0x25#6
  | .nor rd rs rt => encodeRdRsRt rd rs rt 0x27#6
  | .xor rd rs rt => encodeRdRsRt rd rs rt 0x26#6
  | .slt rd rs rt => encodeRdRsRt rd rs rt 0x2A#6
  | .sll rd rt sh => encodeShift rd rt sh 0x00#6
  | .srl rd rt sh => encodeShift rd rt sh 0x02#6
  | .sra rd rt sh => encodeShift rd rt sh 0x03#6
  | .mult rs rt => encodeRdRsRt 0 rs rt 0x18#6
  | .multu rs rt => encodeRdRsRt 0 rs rt 0x19#6
  | .div rs rt => encodeRdRsRt 0 rs rt 0x1A#6
  | .divu rs rt => encodeRdRsRt 0 rs rt 0x1B#6
  | .mfhi rd => encodeRdRsRt rd 0 0 0x10#6
  | .mflo rd => encodeRdRsRt rd 0 0 0x12#6
  | .mthi rs => encodeRdRsRt 0 rs 0 0x11#6
  | .mtlo rs => encodeRdRsRt 0 rs 0 0x13#6
  | .jr rs => encodeRdRsRt 0 rs 0 0x08#6
  | .jalr rd rs => encodeRdRsRt rd rs 0 0x09#6
  | .addi rt rs imm => encodeRtRsImm 0x08#6 rt rs imm
  | .addiu rt rs imm => encodeRtRsImm 0x09#6 rt rs imm
  | .andi rt rs imm => encodeRtRsImm 0x0C#6 rt rs imm
  | .ori rt rs imm => encodeRtRsImm 0x0D#6 rt rs imm
  | .xori rt rs imm => encodeRtRsImm 0x0E#6 rt rs imm
  | .slti rt rs imm => encodeRtRsImm 0x0A#6 rt rs imm
  | .lui rt imm => encodeRtRsImm 0x0F#6 rt 0 imm
  | .lb rt rs imm => encodeRtRsImm 0x20#6 rt rs imm
  | .lh rt rs imm => encodeRtRsImm 0x21#6 rt rs imm
  | .lw rt rs imm => encodeRtRsImm 0x23#6 rt rs imm
  | .sb rt rs imm => encodeRtRsImm 0x28#6 rt rs imm
  | .sh rt rs imm => encodeRtRsImm 0x29#6 rt rs imm
  | .sw rt rs imm => encodeRtRsImm 0x2B#6 rt rs imm
  | .beq rs rt imm => encodeRtRsImm 0x04#6 rt rs imm
  | .bne rs rt imm => encodeRtRsImm 0x05#6 rt rs imm
  | .bgtz rs imm => encodeRtRsImm 0x07#6 0 rs imm
  | .blez rs imm => encodeRtRsImm 0x06#6 0 rs imm
  | .bgez rs imm => encodeRtRsImm 0x01#6 1 rs imm
  | .bltz rs imm => encodeRtRsImm 0x01#6 0 rs imm
  | .j target => encodeJ 0x02#6 target
  | .jal target => encodeJ 0x03#6 target
  | .syscall => encodeRdRsRt 0 0 0 0x0C#6

/-! ### The rows of the table -/

/-- The bits that take part in selecting an instruction: the `mask` column of opcode_table.json (30_encoding R59). -/
def selectorMask : Instr → Word
  | .add .. | .addu .. | .sub .. | .subu .. | .and .. | .or .. | .nor .. | .xor .. | .slt .. => 0xFC00003F#32
  | .sll .. | .srl .. | .sra .. => 0xFC00003F#32
  | .mult .. | .multu .. | .div .. | .divu .. | .mfhi .. | .mflo .. | .mthi .. | .mtlo .. => 0xFC00003F#32
  | .jr .. | .jalr .. | .syscall => 0xFC00003F#32
  | .addi .. | .addiu .. | .andi .. | .ori .. | .xori .. | .slti .. | .lui .. => 0xFC000000#32
  | .lb .. | .lh .. | .lw .. | .sb .. | .sh .. | .sw .. => 0xFC000000#32
  | .beq .. | .bne .. | .bgtz .. | .blez .. | .j .. | .jal .. => 0xFC000000#32
  | .bgez .. | .bltz .. => 0xFC1F0000#32

/-- The value of those bits: the `match` column of opcode_table.json. -/
def selectorBits : Instr → Word
  | .add .. => 0x00000020#32
  | .addu .. => 0x00000021#32
  | .sub .. => 0x00000022#32
  | .subu .. => 0x00000023#32
  | .and .. => 0x00000024#32
  | .or .. => 0x00000025#32
  | .nor .. => 0x00000027#32
  | .xor .. => 0x00000026#32
  | .slt .. => 0x0000002A#32
  | .sll .. => 0x00000000#32
  | .srl .. => 0x00000002#32
  | .sra .. => 0x00000003#32
  | .mult .. => 0x00000018#32
  | .multu .. => 0x00000019#32
  | .div .. => 0x0000001A#32
  | .divu .. => 0x0000001B#32
  | .mfhi .. => 0x00000010#32
  | .mflo .. => 0x00000012#32
  | .mthi .. => 0x00000011#32
  | .mtlo .. => 0x00000013#32
  | .jr .. => 0x00000008#32
  | .jalr .. => 0x00000009#32
  | .addi .. => 0x20000000#32
  | .addiu .. => 0x24000000#32
  | .andi .. => 0x30000000#32
  | .ori .. => 0x34000000#32
  | .xori .. => 0x38000000#32
  | .slti .. => 0x28000000#32
  | .lui .. => 0x3C000000#32
  | .lb .. => 0x80000000#32
  | .lh .. => 0x84000000#32
  | .lw .. => 0x8C000000#32
  | .sb .. => 0xA0000000#32
  | .sh .. => 0xA4000000#32
  | .sw .. => 0xAC000000#32
  | .beq .. => 0x10000000#32
  | .bne .. => 0x14000000#32
  | .bgtz .. => 0x1C000000#32
  | .blez .. => 0x18000000#32
  | .bgez .. => 0x04010000#32
  | .bltz .. => 0x04000000#32
  | .j .. => 0x08000000#32
  | .jal .. => 0x0C000000#32
  | .syscall => 0x0000000C#32

/-- The bits an instruction ignores: its row of the table of 30_encoding R59. -/
def ignoredBits : Instr → Word
  | .add .. | .addu .. | .sub .. | .subu .. | .and .. | .or .. | .nor .. | .xor .. | .slt .. => 0x000007C0#32
  | .sll .. | .srl .. | .sra .. => 0x03E00000#32
  | .mult .. | .multu .. | .div .. | .divu .. => 0x0000FFC0#32
  | .mfhi .. | .mflo .. => 0x03FF07C0#32
  | .mthi .. | .mtlo .. => 0x001FFFC0#32
  | .jr .. => 0x001FFFC0#32
  | .jalr .. => 0x001F07C0#32
  | .syscall => 0x03FFFFC0#32
  | .lui .. => 0x03E00000#32
  | .bgtz .. | .blez .. => 0x001F0000#32
  | .addi .. | .addiu .. | .andi .. | .ori .. | .xori .. | .slti .. => 0#32
  | .lb .. | .lh .. | .lw .. | .sb .. | .sh .. | .sw .. => 0#32
  | .beq .. | .bne .. | .bgez .. | .bltz .. | .j .. | .jal .. => 0#32

end Sys2Proof
end

