-- ==== Sys2Proof/Machine/Flags.lean ====
section
/-! DEFINITION. Lab1 CORE has no flags: no carry, overflow, zero or negative bit and no instruction with a flag side
effect (10_state R23). What a flag would hold elsewhere is computed here as a comparison that writes a general register
(SLT, SLTI) or decides a branch directly. -/

namespace Sys2Proof.Machine

/-- `signed(v)` (00_scope section 5). -/
def signed (v : Word) : Int := v.toInt

/-- The signed comparison of SLT and SLTI (41_alu_register R98, 45_alu_immediate R123). -/
def signedLess (a b : Word) : Bool := decide (signed a < signed b)

/-- What SLT and SLTI write: 1 or 0 (41_alu_register R98). -/
def setOnLess (a b : Word) : Word := if signedLess a b then 1#32 else 0#32

/-- BEQ's condition (47_branch_jump R137). -/
def condEqual (a b : Word) : Bool := decide (a = b)

/-- BNE's condition (47_branch_jump R138). -/
def condNotEqual (a b : Word) : Bool := decide (a ≠ b)

/-- BGTZ's condition (47_branch_jump R139). -/
def condGreaterThanZero (a : Word) : Bool := decide (signed a > 0)

/-- BLEZ's condition (47_branch_jump R140). -/
def condLessOrEqualZero (a : Word) : Bool := decide (signed a ≤ 0)

/-- BGEZ's condition (47_branch_jump R141). -/
def condGreaterOrEqualZero (a : Word) : Bool := decide (signed a ≥ 0)

/-- BLTZ's condition (47_branch_jump R142). -/
def condLessThanZero (a : Word) : Bool := decide (signed a < 0)

end Sys2Proof.Machine
end

