-- ==== Sys2Proof/Machine/Operands.lean ====
section
/-! DEFINITION. How an instruction forms its operands (30_encoding R57): the extensions of the raw immediate, the
effective address, and the two kinds of branch target. There are no other operand forms. -/

namespace Sys2Proof.Machine

/-- `sext_8` (00_scope section 5). -/
def sext8 (v : Byte) : Word := v.signExtend 32

/-- `sext_16` (00_scope section 5). -/
def sext16 (v : BitVec 16) : Word := v.signExtend 32

/-- `zext_16` (00_scope section 5). -/
def zext16 (v : BitVec 16) : Word := v.setWidth 32

/-- LUI's operand `imm || 0x0000` (45_alu_immediate R124). -/
def upperImmediate (imm : BitVec 16) : Word := zext16 imm <<< 16

/-- The effective address of a load or store, from the base register's value; it wraps modulo 2^32 (46_load_store R126). -/
def effectiveAddress (base : Word) (imm : BitVec 16) : Word := base + sext16 imm

/-- `BT`, the target of a conditional branch at `pc`, relative to the delay slot (47_branch_jump R136). -/
def branchTarget (pc : Word) (imm : BitVec 16) : Word := pc + 4#32 + sext16 imm <<< 2

/-- `JT`, the target of J and JAL at `pc`: the top four bits are those of the delay slot's address (47_branch_jump R143). -/
def jumpTarget (pc : Word) (target : BitVec 26) : Word := (pc + 4#32) &&& 0xF0000000#32 ||| target.setWidth 32 <<< 2

/-- The link of JAL and JALR at `pc`: the address after the delay slot, modulo 2^32 (44_jump_register R116, 10_state R14). -/
def linkAddress (pc : Word) : Word := pc + 8#32

end Sys2Proof.Machine
end

