-- ==== Sys2Proof/Machine/State.lean ====
section
/-! DEFINITION. The state of Lab1 CORE (10_state section 1, closed by R23), as plain data, and its value after reset
(10_state R25, 70_reset_and_hazards R166). -/

namespace Sys2Proof.Machine

/-- The run state (10_state R19): two states only. -/
inductive RunState where
  | running
  | halted
  deriving DecidableEq, Repr

/-- The diagnostic output (10_state R21, 60_exceptions R151). Symbolic: the spec fixes no codes. -/
inductive Diag where
  | none
  | misalignedSpan
  | unknownOpcode
  | divideByZero
  deriving DecidableEq, Repr

/-- One snapshot of the double-buffered part of the state (10_state R17): `GPR` (R10), `HI` and `LO` (R13), `PC` (R14) and
the pending-branch slot `BD` (R16). -/
structure Snapshot where
  gpr : Vector Word 32
  hi  : Word
  lo  : Word
  pc  : Word
  bd  : Option Word
  deriving DecidableEq, Repr

/-- Memory contents (10_state R22): the bytes that differ from the 0 of reset (20_memory R41), by rising address, each
address once (log 3). `Memory.wf` in Ops.lean states that form. -/
structure Memory where
  cells : List Host.Cell
  deriving DecidableEq, Repr

/-- The machine. `cur` and `nxt` are the current and the next snapshot (10_state R17); `RUN`, `ICOUNT` and memory exist
once (10_state section 1). `diag` is the `DIAG` output of the last cycle, which the host may read (40_cycle_driver R85).
`exit` is the signal of SYSCALL to the cycle driver, local to one cycle (40_cycle_driver R70; log 5). `config` holds the
parameters of 00_scope R3, which no step changes (log 1). -/
structure State where
  config : Config
  cur    : Snapshot
  nxt    : Snapshot
  mem    : Memory
  run    : RunState
  icount : BitVec 32
  diag   : Diag
  exit   : Bool
  deriving DecidableEq, Repr

/-- Why a step stops. The hardware has no fault state (10_state R19) and no trap (60_exceptions R150). -/
inductive Fault where
  /-- Raised by a cycle that starts with `PC[1:0] != 0`: the spec gives such a cycle no behaviour (20_memory R39;
  93_implementation_defined U1). Safe: the model stops where the hardware may go on (log 7). -/
  | unalignedPc
  deriving DecidableEq, Repr

/-- Why an instruction has no meaning here. -/
inductive Refusal where
  /-- Raised by no instruction: every arm of exec has a meaning. Safe: a refusal proves nothing. -/
  | notModelled (mnemonic : String)
  deriving DecidableEq, Repr

/-- A snapshot after reset: the registers, `HI` and `LO` zero, `PC` at `MEM_TEXT_BEGIN`, `BD` empty (10_state R25). -/
def Snapshot.reset (c : Config) : Snapshot :=
  { gpr := Vector.replicate 32 0#32, hi := 0#32, lo := 0#32, pc := c.textBegin, bd := none }

/-- The state after reset of a machine with the parameters `c` (10_state R25, 70_reset_and_hazards R166). -/
def State.resetWith (c : Config) : State :=
  { config := c, cur := Snapshot.reset c, nxt := Snapshot.reset c, mem := ⟨[]⟩,
    run := .running, icount := 0#32, diag := .none, exit := false }

/-- The state after reset, with the test configuration's memory map (log 1). -/
def State.reset : State := State.resetWith Config.tc

end Sys2Proof.Machine
end

