-- ==== Sys2Proof/Machine/Ops.lean ====
section
/-! DEFINITION. The named operations over memory and registers that the instruction rules use (00_scope section 5,
20_memory, 40_cycle_driver R76). Lab1 CORE has no trap: no event redirects control, saves state or enters a handler, and
there is no return from one (60_exceptions R150, R159, R160). The shared operation that stands in a trap's place is
`State.report`, the emission of a diagnostic. -/

namespace Sys2Proof.Machine

/-! ### Regions (20_memory R31, R32) -/

/-- The region owns the byte address `a` (20_memory R31). -/
def ownsAddress (r : Region) (a : Nat) : Bool := decide (r.base ≤ a) && decide (a < r.base + r.size)

/-- `Region(a)`: the region that owns the first byte address `a` (20_memory R32). Unique when the regions are disjoint. -/
def regionOf (c : Config) (a : Word) : Option Region := c.regions.find? fun r => ownsAddress r a.toNat

/-! ### Bytes -/

/-- The byte at address `a`; an address that is not listed holds the 0 of reset (20_memory R41). -/
def byteInCells : List Host.Cell → Nat → Byte
  | [], _ => 0#8
  | (b, v) :: rest, a => if a = b then v else byteInCells rest a

/-- Cells with the byte at `a` made `v`, in canonical form. -/
def setByteInCells : List Host.Cell → Nat → Byte → List Host.Cell
  | [], a, v => if v = 0#8 then [] else [(a, v)]
  | (b, w) :: rest, a, v =>
    if a < b then (if v = 0#8 then (b, w) :: rest else (a, v) :: (b, w) :: rest)
    else if a = b then (if v = 0#8 then rest else (a, v) :: rest)
    else (b, w) :: setByteInCells rest a v

/-- `M[a]` (20_memory R33). -/
def Memory.byte (m : Memory) (a : Nat) : Byte := byteInCells m.cells a

/-- `M[a] <- v` (20_memory R34). -/
def Memory.setByte (m : Memory) (a : Nat) (v : Byte) : Memory := ⟨setByteInCells m.cells a v⟩

/-- The canonical form: addresses strictly rising, and no cell that holds the 0 an unlisted address reads as (log 3). -/
abbrev Memory.wf (m : Memory) : Prop := m.cells.Pairwise (fun x y => x.1 < y.1) ∧ ∀ x ∈ m.cells, x.2 ≠ 0#8

/-- Every listed byte lies in a region: memory has no other bytes (10_state R22, 20_memory R31). -/
abbrev Memory.withinRegions (m : Memory) (c : Config) : Prop := ∀ x ∈ m.cells, ∃ r ∈ c.regions, ownsAddress r x.1 = true

/-- The four bytes from `a` as a word (20_memory R33). -/
def Memory.word (m : Memory) (a : Nat) : Word :=
  wordOfBytes (m.byte a) (m.byte (a + 1)) (m.byte (a + 2)) (m.byte (a + 3))

/-- The four bytes from `a` become those of `v` (20_memory R34). -/
def Memory.setWord (m : Memory) (a : Nat) (v : Word) : Memory :=
  (((m.setByte a (byteOfWord v 0)).setByte (a + 1) (byteOfWord v 1)).setByte (a + 2) (byteOfWord v 2)).setByte
    (a + 3) (byteOfWord v 3)

/-! ### The word primitives and what is built on them (20_memory R33 to R37) -/

/-- The status of a memory access (20_memory R33). -/
inductive MemStatus where
  | ok
  | unmapped
  | span
  deriving DecidableEq, Repr

/-- What a read of `n` bits returns: a status, and a value unless the status is SPAN (20_memory R33, R36). -/
inductive ReadResult (n : Nat) where
  | ok (v : BitVec n)
  | unmapped (v : BitVec n)
  | span
  deriving DecidableEq, Repr

/-- The status in a read's result. -/
def ReadResult.status : ReadResult n → MemStatus
  | .ok _ => .ok
  | .unmapped _ => .unmapped
  | .span => .span

/-- The status of a word access at `a`, by the first byte's region; the span check is on integers and does not wrap
(20_memory R33, R40). -/
def wordStatus (c : Config) (a : Word) : MemStatus :=
  match regionOf c a with
  | none => .unmapped
  | some r => if a.toNat + 3 ≥ r.base + r.size then .span else .ok

/-- `ReadWord(a)` (20_memory R33). -/
def readWord (c : Config) (m : Memory) (a : Word) : ReadResult 32 :=
  match wordStatus c a with
  | .unmapped => .unmapped 0#32
  | .span => .span
  | .ok => .ok (m.word a.toNat)

/-- `WriteWord(a, v)` (20_memory R34): the status, and memory after it. -/
def writeWord (c : Config) (m : Memory) (a v : Word) : MemStatus × Memory :=
  match wordStatus c a with
  | .unmapped => (.unmapped, m)
  | .span => (.span, m)
  | .ok => (.ok, m.setWord a.toNat v)

/-- `MemRead(addr, n)` with `n` given in bits, 8, 16 or 32 (20_memory R36): the low bits of the word that begins at the
address. -/
def memRead (c : Config) (m : Memory) (bits : Nat) (a : Word) : ReadResult bits :=
  match readWord c m a with
  | .span => .span
  | .unmapped _ => .unmapped (0#bits)
  | .ok w => .ok (w.setWidth bits)

/-- The mask `2^(8n) - 1`, by the number of bits (20_memory R37). -/
def lowMask (bits : Nat) : Word := BitVec.ofNat 32 (2 ^ bits - 1)

/-- `MemWrite(addr, n, v)` with `n` given in bits (20_memory R37): a read-modify-write of the word that begins at the
address. -/
def memWrite (c : Config) (m : Memory) (bits : Nat) (a v : Word) : MemStatus × Memory :=
  match readWord c m a with
  | .span => (.span, m)
  | .unmapped _ => (.unmapped, m)
  | .ok w => writeWord c m a (w &&& ~~~(lowMask bits) ||| v &&& lowMask bits)

/-! ### Registers: reads are of the current snapshot, writes go to the next (10_state R17) -/

/-- Register `i` of a snapshot; register 0 is read like any other (10_state R11). -/
def Snapshot.reg (p : Snapshot) (i : Reg) : Word := p.gpr[i.val]

/-- Register `i` of a snapshot becomes `v`; register 0 is written like any other (10_state R11). -/
def Snapshot.setReg (p : Snapshot) (i : Reg) (v : Word) : Snapshot := { p with gpr := p.gpr.set i.val v }

/-- `x[i]` (00_scope section 5). -/
def State.x (s : State) (i : Reg) : Word := s.cur.reg i

/-- `pc` (00_scope section 5). -/
def State.pc (s : State) : Word := s.cur.pc

/-- `x[i] <- v` (00_scope section 5). -/
def State.setX (s : State) (i : Reg) (v : Word) : State := { s with nxt := s.nxt.setReg i v }

/-- `HI <- v`. -/
def State.setHi (s : State) (v : Word) : State := { s with nxt := { s.nxt with hi := v } }

/-- `LO <- v`. -/
def State.setLo (s : State) (v : Word) : State := { s with nxt := { s.nxt with lo := v } }

/-- `bd <- t`: stage a delayed control transfer (40_cycle_driver R72). -/
def State.stage (s : State) (t : Word) : State := { s with nxt := { s.nxt with bd := some t } }

/-- `diag(code)`: report a diagnostic; it changes nothing else (60_exceptions R150). -/
def State.report (s : State) (d : Diag) : State := { s with diag := d }

/-- `signal_exit` (48_syscall_unknown R146). -/
def State.signalExit (s : State) : State := { s with exit := true }

/-- Memory is not double-buffered: a store takes effect in the execute phase (10_state R18). -/
def State.setMem (s : State) (m : Memory) : State := { s with mem := m }

/-! ### Shared instruction shapes -/

/-- A load (46_load_store R133): a value, the 0 of an unmapped address included, goes through `extend` into `rt`; SPAN
makes the instruction a no-op with `MISALIGNED_SPAN`. -/
def State.load (s : State) (bits : Nat) (extend : BitVec bits → Word) (rt rs : Reg) (imm : BitVec 16) : State :=
  match memRead s.config s.mem bits (effectiveAddress (s.x rs) imm) with
  | .span => s.report .misalignedSpan
  | .unmapped v => s.setX rt (extend v)
  | .ok v => s.setX rt (extend v)

/-- A store (46_load_store R133): the low `bits` of `x[rt]`; SPAN makes the instruction a no-op with `MISALIGNED_SPAN`, an
unmapped address a silent no-op. -/
def State.store (s : State) (bits : Nat) (rt rs : Reg) (imm : BitVec 16) : State :=
  match memWrite s.config s.mem bits (effectiveAddress (s.x rs) imm) (s.x rt) with
  | (.span, _) => s.report .misalignedSpan
  | (.unmapped, _) => s
  | (.ok, m) => s.setMem m

/-- A conditional branch: a taken one stages `BT`, one not taken writes nothing (40_cycle_driver R72, 47_branch_jump R136). -/
def State.branchIf (s : State) (taken : Bool) (imm : BitVec 16) : State :=
  if taken then s.stage (branchTarget s.pc imm) else s

end Sys2Proof.Machine
end

