-- ==== Sys2Proof/Machine/AluImmediate.lean ====
section
/-! DEFINITION. The immediate arithmetic and logical instructions, and LUI (45_alu_immediate R118 to R124). ADDI, ADDIU and
SLTI sign-extend the immediate, ANDI, ORI and XORI zero-extend it (30_encoding R57). -/

namespace Sys2Proof.Machine

/-- ADDI (R118): no overflow trap. -/
def execAddi (rt rs : Reg) (imm : BitVec 16) (s : State) : Host.Outcome State Fault Refusal :=
  .next (s.setX rt (s.x rs + sext16 imm))

/-- ADDIU (R119): the immediate is sign-extended in spite of the `U`. -/
def execAddiu (rt rs : Reg) (imm : BitVec 16) (s : State) : Host.Outcome State Fault Refusal :=
  .next (s.setX rt (s.x rs + sext16 imm))

/-- ANDI (R120). -/
def execAndi (rt rs : Reg) (imm : BitVec 16) (s : State) : Host.Outcome State Fault Refusal :=
  .next (s.setX rt (s.x rs &&& zext16 imm))

/-- ORI (R121). -/
def execOri (rt rs : Reg) (imm : BitVec 16) (s : State) : Host.Outcome State Fault Refusal :=
  .next (s.setX rt (s.x rs ||| zext16 imm))

/-- XORI (R122). -/
def execXori (rt rs : Reg) (imm : BitVec 16) (s : State) : Host.Outcome State Fault Refusal :=
  .next (s.setX rt (s.x rs ^^^ zext16 imm))

/-- SLTI (R123): a signed comparison. -/
def execSlti (rt rs : Reg) (imm : BitVec 16) (s : State) : Host.Outcome State Fault Refusal :=
  .next (s.setX rt (setOnLess (s.x rs) (sext16 imm)))

/-- LUI (R124). -/
def execLui (rt : Reg) (imm : BitVec 16) (s : State) : Host.Outcome State Fault Refusal :=
  .next (s.setX rt (upperImmediate imm))

end Sys2Proof.Machine
end

