-- ==== Sys2Proof/Machine/AluRegister.lean ====
section
/-! DEFINITION. The register-register arithmetic and logical instructions (41_alu_register R90 to R98). None traps on
overflow, none writes a flag, none touches memory, `HI`, `LO` or `BD`. -/

namespace Sys2Proof.Machine

/-- ADD (R90): no overflow trap. -/
def execAdd (rd rs rt : Reg) (s : State) : Host.Outcome State Fault Refusal := .next (s.setX rd (s.x rs + s.x rt))

/-- ADDU (R91). -/
def execAddu (rd rs rt : Reg) (s : State) : Host.Outcome State Fault Refusal := .next (s.setX rd (s.x rs + s.x rt))

/-- SUB (R92): the first operand is `rs`; no overflow trap. -/
def execSub (rd rs rt : Reg) (s : State) : Host.Outcome State Fault Refusal := .next (s.setX rd (s.x rs - s.x rt))

/-- SUBU (R93). -/
def execSubu (rd rs rt : Reg) (s : State) : Host.Outcome State Fault Refusal := .next (s.setX rd (s.x rs - s.x rt))

/-- AND (R94). -/
def execAnd (rd rs rt : Reg) (s : State) : Host.Outcome State Fault Refusal := .next (s.setX rd (s.x rs &&& s.x rt))

/-- OR (R95). -/
def execOr (rd rs rt : Reg) (s : State) : Host.Outcome State Fault Refusal := .next (s.setX rd (s.x rs ||| s.x rt))

/-- NOR (R96). -/
def execNor (rd rs rt : Reg) (s : State) : Host.Outcome State Fault Refusal := .next (s.setX rd (~~~(s.x rs ||| s.x rt)))

/-- XOR (R97). -/
def execXor (rd rs rt : Reg) (s : State) : Host.Outcome State Fault Refusal := .next (s.setX rd (s.x rs ^^^ s.x rt))

/-- SLT (R98). -/
def execSlt (rd rs rt : Reg) (s : State) : Host.Outcome State Fault Refusal := .next (s.setX rd (setOnLess (s.x rs) (s.x rt)))

end Sys2Proof.Machine
end

