-- ==== Sys2Proof/Machine/BranchJump.lean ====
section
/-! DEFINITION. The conditional branches and the absolute jumps (47_branch_jump R136 to R144). Each stages its target in
`BD`; none writes `PC` (40_cycle_driver R72). The compare-with-zero branches are signed (log 15). -/

namespace Sys2Proof.Machine

/-- BEQ (R137). -/
def execBeq (rs rt : Reg) (imm : BitVec 16) (s : State) : Host.Outcome State Fault Refusal :=
  .next (s.branchIf (condEqual (s.x rs) (s.x rt)) imm)

/-- BNE (R138). -/
def execBne (rs rt : Reg) (imm : BitVec 16) (s : State) : Host.Outcome State Fault Refusal :=
  .next (s.branchIf (condNotEqual (s.x rs) (s.x rt)) imm)

/-- BGTZ (R139). -/
def execBgtz (rs : Reg) (imm : BitVec 16) (s : State) : Host.Outcome State Fault Refusal :=
  .next (s.branchIf (condGreaterThanZero (s.x rs)) imm)

/-- BLEZ (R140). -/
def execBlez (rs : Reg) (imm : BitVec 16) (s : State) : Host.Outcome State Fault Refusal :=
  .next (s.branchIf (condLessOrEqualZero (s.x rs)) imm)

/-- BGEZ (R141). -/
def execBgez (rs : Reg) (imm : BitVec 16) (s : State) : Host.Outcome State Fault Refusal :=
  .next (s.branchIf (condGreaterOrEqualZero (s.x rs)) imm)

/-- BLTZ (R142). -/
def execBltz (rs : Reg) (imm : BitVec 16) (s : State) : Host.Outcome State Fault Refusal :=
  .next (s.branchIf (condLessThanZero (s.x rs)) imm)

/-- J (R143). -/
def execJ (target : BitVec 26) (s : State) : Host.Outcome State Fault Refusal := .next (s.stage (jumpTarget s.pc target))

/-- JAL (R144): links in register 31. -/
def execJal (target : BitVec 26) (s : State) : Host.Outcome State Fault Refusal :=
  .next ((s.stage (jumpTarget s.pc target)).setX 31 (linkAddress s.pc))

end Sys2Proof.Machine
end

