-- ==== Sys2Proof/Machine/JumpRegister.lean ====
section
/-! DEFINITION. The jump-register instructions (44_jump_register R115, R116). The target is the whole register value,
unmasked and unchecked; the transfer is staged in `BD` (40_cycle_driver R72). -/

namespace Sys2Proof.Machine

/-- JR (R115). -/
def execJr (rs : Reg) (s : State) : Host.Outcome State Fault Refusal := .next (s.stage (s.x rs))

/-- JALR (R116): both reads are of the current snapshot, so `rd = rs` jumps to the old value. -/
def execJalr (rd rs : Reg) (s : State) : Host.Outcome State Fault Refusal :=
  .next ((s.stage (s.x rs)).setX rd (linkAddress s.pc))

end Sys2Proof.Machine
end

