-- ==== Sys2Proof/Machine/LoadStore.lean ====
section
/-! DEFINITION. The load and store instructions (46_load_store R126 to R133), each one form over `State.load` or
`State.store`. Loads sign-extend; there are no unsigned loads. -/

namespace Sys2Proof.Machine

/-- LB (R127). -/
def execLb (rt rs : Reg) (imm : BitVec 16) (s : State) : Host.Outcome State Fault Refusal := .next (s.load 8 sext8 rt rs imm)

/-- LH (R128). -/
def execLh (rt rs : Reg) (imm : BitVec 16) (s : State) : Host.Outcome State Fault Refusal := .next (s.load 16 sext16 rt rs imm)

/-- LW (R129). -/
def execLw (rt rs : Reg) (imm : BitVec 16) (s : State) : Host.Outcome State Fault Refusal :=
  .next (s.load 32 (fun v => v) rt rs imm)

/-- SB (R130). -/
def execSb (rt rs : Reg) (imm : BitVec 16) (s : State) : Host.Outcome State Fault Refusal := .next (s.store 8 rt rs imm)

/-- SH (R131). -/
def execSh (rt rs : Reg) (imm : BitVec 16) (s : State) : Host.Outcome State Fault Refusal := .next (s.store 16 rt rs imm)

/-- SW (R132). -/
def execSw (rt rs : Reg) (imm : BitVec 16) (s : State) : Host.Outcome State Fault Refusal := .next (s.store 32 rt rs imm)

end Sys2Proof.Machine
end

