-- ==== Sys2Proof/Machine/MulDiv.lean ====
section
/-! DEFINITION. Multiply, divide and the HI/LO moves (43_muldiv_hilo R105 to R112). Which forms are signed, the operand
roles and the rounding of signed division are the spec's own decisions (log 14, log 15). -/

namespace Sys2Proof.Machine

/-- The 64-bit pattern of the exact signed product (R105). -/
def signedProduct (a b : Word) : DoubleWord := BitVec.ofInt 64 (signed a * signed b)

/-- The 64-bit pattern of the exact unsigned product (R106). -/
def unsignedProduct (a b : Word) : DoubleWord := BitVec.ofNat 64 (a.toNat * b.toNat)

/-- `HI <- P[63:32]`, `LO <- P[31:0]` (R105, R106). -/
def State.setProduct (s : State) (p : DoubleWord) : State := (s.setHi (p.extractLsb' 32 32)).setLo (p.extractLsb' 0 32)

/-- MULT (R105). -/
def execMult (rs rt : Reg) (s : State) : Host.Outcome State Fault Refusal :=
  .next (s.setProduct (signedProduct (s.x rs) (s.x rt)))

/-- MULTU (R106). -/
def execMultu (rs rt : Reg) (s : State) : Host.Outcome State Fault Refusal :=
  .next (s.setProduct (unsignedProduct (s.x rs) (s.x rt)))

/-- The quotient of two integers rounded toward zero, modulo 2^32 (R107). -/
def signedQuotient (a b : Word) : Word := BitVec.ofInt 32 (Int.tdiv (signed a) (signed b))

/-- The remainder `a - q * b` for that quotient, modulo 2^32 (R107). -/
def signedRemainder (a b : Word) : Word := BitVec.ofInt 32 (signed a - Int.tdiv (signed a) (signed b) * signed b)

/-- The unsigned quotient, rounded down (R108). -/
def unsignedQuotient (a b : Word) : Word := BitVec.ofNat 32 (a.toNat / b.toNat)

/-- The unsigned remainder (R108). -/
def unsignedRemainder (a b : Word) : Word := a - unsignedQuotient a b * b

/-- A division: quotient to `LO`, remainder to `HI`; a zero divisor leaves both and reports `DIVIDE_BY_ZERO`
(R107, R108, 60_exceptions R155). -/
def State.divide (s : State) (divisor q r : Word) : State :=
  if divisor = 0#32 then s.report .divideByZero else (s.setLo q).setHi r

/-- DIV (R107). `0x80000000 / 0xFFFFFFFF` gives `LO = 0x80000000`, `HI = 0` by the reduction modulo 2^32 (log 14). -/
def execDiv (rs rt : Reg) (s : State) : Host.Outcome State Fault Refusal :=
  .next (s.divide (s.x rt) (signedQuotient (s.x rs) (s.x rt)) (signedRemainder (s.x rs) (s.x rt)))

/-- DIVU (R108). -/
def execDivu (rs rt : Reg) (s : State) : Host.Outcome State Fault Refusal :=
  .next (s.divide (s.x rt) (unsignedQuotient (s.x rs) (s.x rt)) (unsignedRemainder (s.x rs) (s.x rt)))

/-- MFHI (R109). -/
def execMfhi (rd : Reg) (s : State) : Host.Outcome State Fault Refusal := .next (s.setX rd s.cur.hi)

/-- MFLO (R110). -/
def execMflo (rd : Reg) (s : State) : Host.Outcome State Fault Refusal := .next (s.setX rd s.cur.lo)

/-- MTHI (R111): `LO` is unchanged. -/
def execMthi (rs : Reg) (s : State) : Host.Outcome State Fault Refusal := .next (s.setHi (s.x rs))

/-- MTLO (R112): `HI` is unchanged. -/
def execMtlo (rs : Reg) (s : State) : Host.Outcome State Fault Refusal := .next (s.setLo (s.x rs))

end Sys2Proof.Machine
end

