-- ==== Sys2Proof/Machine/Shifts.lean ====
section
/-! DEFINITION. The shift instructions (42_shifts R100 to R102). The amount is the 5-bit field, 0 to 31, so a shift by the
width cannot be expressed. -/

namespace Sys2Proof.Machine

/-- SLL (R100). -/
def execSll (rd rt : Reg) (shamt : BitVec 5) (s : State) : Host.Outcome State Fault Refusal :=
  .next (s.setX rd (s.x rt <<< shamt.toNat))

/-- SRL (R101): fills with 0. -/
def execSrl (rd rt : Reg) (shamt : BitVec 5) (s : State) : Host.Outcome State Fault Refusal :=
  .next (s.setX rd (s.x rt >>> shamt.toNat))

/-- SRA (R102): fills with the sign bit. -/
def execSra (rd rt : Reg) (shamt : BitVec 5) (s : State) : Host.Outcome State Fault Refusal :=
  .next (s.setX rd ((s.x rt).sshiftRight shamt.toNat))

end Sys2Proof.Machine
end

