-- ==== Sys2Proof/Machine/Syscall.lean ====
section
/-! DEFINITION. SYSCALL and the decoder's `Unknown` variant (48_syscall_unknown R146, R147). Neither is a trap. -/

namespace Sys2Proof.Machine

/-- The exit code of the SYSCALL convention (00_scope R2). -/
def exitCode : Word := 0x0000000A#32

/-- SYSCALL (R146): `x[2] = 0xA` signals the end of the program, every other value makes it a no-op. No register is
written. -/
def execSyscall (s : State) : Host.Outcome State Fault Refusal :=
  .next (if s.x 2 = exitCode then s.signalExit else s)

/-- `Unknown` (R147): a no-op that reports `UNKNOWN_OPCODE`. -/
def execUnknown (s : State) : Host.Outcome State Fault Refusal := .next (s.report .unknownOpcode)

end Sys2Proof.Machine
end

