-- ==== Sys2Proof/Machine/Sequencer.lean ====
section
/-! DEFINITION. The parts of a cycle around the instruction (40_cycle_driver R70): seeding the next snapshot, the PC
sequencer with its delay slot (R71 to R74), the fetch (R75), the commit and count (R77), and the halt (R78). -/

namespace Sys2Proof.Machine

/-- A multiple of 4: `a[1:0] = 0` (20_memory R39). -/
def isAligned (a : Word) : Bool := decide (a.extractLsb' 0 2 = 0#2)

/-- Step 1: `next <- cur ; DIAG <- NONE ; exit <- false`. -/
def State.seed (s : State) : State := { s with nxt := s.cur, diag := .none, exit := false }

/-- The value the sequencer writes to `next.PC`: the pending target, or `PC + 4` modulo 2^32 (R71). -/
def State.sequencedPc (s : State) : Word :=
  match s.cur.bd with
  | some t => t
  | none => s.cur.pc + 4#32

/-- The value the sequencer leaves in `next.BD`: a pending target is consumed, an empty slot stays (R71). -/
def State.sequencedBd (s : State) : Option Word :=
  match s.cur.bd with
  | some _ => none
  | none => s.nxt.bd

/-- Step 2: the sequencer (R71). -/
def State.sequencePc (s : State) : State := { s with nxt := { s.nxt with pc := s.sequencedPc, bd := s.sequencedBd } }

/-- Steps 1 and 2: the state in which the instruction executes. -/
def State.prepare (s : State) : State := s.seed.sequencePc

/-- Step 3: the fetched word; an unmapped fetch returns the word 0, a SPAN fetch returns none (R75). -/
def State.fetchedWord (s : State) : Option Word :=
  match readWord s.config s.mem s.pc with
  | .ok w => some w
  | .unmapped w => some w
  | .span => none

/-- Step 6: `cur <- next ; ICOUNT <- ICOUNT + 1`, modulo 2^32 (R77, 10_state R18, R20). -/
def State.commit (s : State) : State := { s with cur := s.nxt, icount := s.icount + 1#32 }

/-- Step 7: `if exit: RUN <- HALTED` (R78). The signal is local to the cycle and is taken back here (log 5). -/
def State.haltOnExit (s : State) : State := if s.exit then { s with run := .halted, exit := false } else s

/-- Steps 6 and 7. -/
def State.finish (s : State) : State := s.commit.haltOnExit

/-- The cycle's end, where the execute phase gave a next state. -/
def finishOutcome : Host.Outcome State Fault Refusal → Host.Outcome State Fault Refusal
  | .next t => .next t.finish
  | .fault f => .fault f
  | .refused r => .refused r

end Sys2Proof.Machine
end

