-- ==== Sys2Proof/Machine/Cycle.lean ====
section
/-! DEFINITION. One cycle (40_cycle_driver R70), and the placing of an instruction word where the next cycle fetches it. -/

namespace Sys2Proof.Machine

/-- Steps 4 and 5 for a fetched word: decode, then exactly one rule (R76). -/
def runWord (w : Word) (s : State) : Host.Outcome State Fault Refusal :=
  match decode w with
  | .instr i => exec i s
  | .unknown => execUnknown s

/-- Steps 3 to 5: a SPAN fetch decodes and executes nothing and reports `MISALIGNED_SPAN` (R75). -/
def runFetched (s : State) : Host.Outcome State Fault Refusal :=
  match s.fetchedWord with
  | none => .next (s.report .misalignedSpan)
  | some w => runWord w s

/-- `Cycle()` (R70). A cycle that starts with an unaligned `PC` has no specified behaviour (20_memory R39; log 7). -/
def State.cycle (s : State) : Host.Outcome State Fault Refusal :=
  if isAligned s.pc then finishOutcome (runFetched s.prepare) else .fault .unalignedPc

/-- A cycle can fetch a stored word at `a`. -/
def fetchable (c : Config) (a : Word) : Bool := isAligned a && decide (wordStatus c a = .ok)

/-- The address at which a word can be placed for the next cycle's fetch: `PC` where that address can hold one, else the
text region's base (log 21). -/
def State.placementPc (s : State) : Word := if fetchable s.config s.pc then s.pc else s.config.textBegin

/-- The state with `w` stored where the next cycle fetches (log 21): the load of a program from outside
(70_reset_and_hazards R167), with `RUN` running. -/
def State.placeWord (s : State) (w : Word) : State :=
  { s with cur := { s.cur with pc := s.placementPc }, nxt := { s.nxt with pc := s.placementPc },
           run := .running, mem := s.mem.setWord s.placementPc.toNat w }

end Sys2Proof.Machine
end

