-- ==== Sys2Proof/Machine/Step.lean ====
section
/-! DEFINITION. One `step` request (40_cycle_driver R70, R79), and the state whose next step runs a given word. -/

namespace Sys2Proof.Machine

/-- `step`: one cycle when RUNNING, nothing at all when HALTED (R79). -/
def step (s : State) : Host.Outcome State Fault Refusal :=
  match s.run with
  | .running => s.cycle
  | .halted => .next s

/-- `s` with the instruction word of `nbits` bits `w` stored where `step` fetches next (log 21). -/
def State.withFetchWord (s : State) (nbits w : Nat) : State := s.placeWord (tableWord nbits w)

end Sys2Proof.Machine
end

