-- ==== Sys2Proof/Machine/HostPort.lean ====
section
/-! DEFINITION. The control interface the host drives between cycles (40_cycle_driver R77 to R87, 70_reset_and_hazards
R166, R167). Each operation is atomic and acts at a cycle boundary (R87), so each is a function on states beside `step`
(log 20). -/

namespace Sys2Proof.Machine

/-- `reset`, in either run state (R83, 70_reset_and_hazards R166): every element takes its reset value, memory is zeroed. -/
def State.hostReset (s : State) : State := State.resetWith s.config

/-- A stop request: `RUN <- HALTED`, and nothing else (R82). -/
def State.hostStop (s : State) : State := { s with run := .halted }

/-- What the host may inject into (R84): not `PC`, `BD`, `RUN` or `ICOUNT`. -/
inductive InjectTarget where
  | gpr (i : Reg)
  | hi
  | lo
  deriving DecidableEq, Repr

/-- One injection (R84). -/
structure Injection where
  target : InjectTarget
  value  : Word
  deriving DecidableEq, Repr

/-- The write of an injection into one snapshot. -/
def Snapshot.inject (p : Snapshot) (j : Injection) : Snapshot :=
  match j.target with
  | .gpr i => p.setReg i j.value
  | .hi => { p with hi := j.value }
  | .lo => { p with lo := j.value }

/-- Injection writes `current` and is mirrored into `next` (R84), in either run state. -/
def State.hostInject (s : State) (j : Injection) : State := { s with cur := s.cur.inject j, nxt := s.nxt.inject j }

/-- The host's `ReadWord` (R85): it changes nothing; SPAN returns no data. -/
def State.hostReadWord (s : State) (a : Word) : ReadResult 32 := readWord s.config s.mem a

/-- The host's `WriteWord` (R86): the status, and the state after it. -/
def State.hostWriteWord (s : State) (a v : Word) : MemStatus × State :=
  ((writeWord s.config s.mem a v).1, s.setMem (writeWord s.config s.mem a v).2)

/-- `WriteWord(a + 4*i, word[i])` for each word in turn. -/
def State.loadFrom (s : State) (a : Word) : List Word → State
  | [] => s
  | w :: ws => ((s.hostWriteWord a w).2).loadFrom (a + 4#32) ws

/-- The loader: `write_word(text_base + 4*i, word[i])` (R86, 70_reset_and_hazards R167). -/
def State.hostLoad (s : State) (ws : List Word) : State := s.loadFrom s.config.textBegin ws

/-- What the host can read beside memory words (R85, 10_state R24): not `BD` and not the next snapshot. -/
structure Observation where
  gpr    : Vector Word 32
  hi     : Word
  lo     : Word
  pc     : Word
  run    : RunState
  icount : BitVec 32
  diag   : Diag
  deriving DecidableEq, Repr

/-- Observation changes nothing (R85). -/
def State.observe (s : State) : Observation :=
  { gpr := s.cur.gpr, hi := s.cur.hi, lo := s.cur.lo, pc := s.cur.pc, run := s.run, icount := s.icount, diag := s.diag }

/-- The state after the stop request of one boundary, where there is one (R82). -/
def State.stopIf (s : State) (stop : Bool) : State := if stop then s.hostStop else s

/-- A run during which stop requests may arrive (R80, R82): one entry for each cycle of the run, `true` where a stop is
presented at the boundary before that cycle. The run ends early in a HALTED state. -/
def State.runUnder (s : State) : List Bool → Host.Outcome State Fault Refusal
  | [] => .next s
  | stop :: stops =>
    match (s.stopIf stop).run with
    | .halted => .next (s.stopIf stop)
    | .running =>
      match step (s.stopIf stop) with
      | .next t => t.runUnder stops
      | .fault f => .fault f
      | .refused r => .refused r

/-- `run(n)` with no stop presented: up to `n` cycles, stopping early when HALTED (R80). -/
def State.runFor (s : State) (n : Nat) : Host.Outcome State Fault Refusal := s.runUnder (List.replicate n false)

/-- `run_to_completion` started in `s`, with the stop requests `stops` presented before its first cycles and none after,
returns in `t`: cycles until HALTED or externally stopped. It need not return (R81; log 23). -/
abbrev State.completesUnder (s : State) (stops : List Bool) (t : State) : Prop :=
  ∃ n, s.runUnder (stops ++ List.replicate n false) = .next t ∧ t.run = .halted

/-- `run_to_completion` with no stop presented returns in `t` (R81; log 23). -/
abbrev State.completesIn (s t : State) : Prop := ∃ n, s.runFor n = .next t ∧ t.run = .halted

/-- Requests presented at one cycle boundary (R87). Each list is in the order in which its requests are applied (log 30). -/
structure Requests where
  reset      : Bool
  stop       : Bool
  injections : List Injection
  writes     : List (Word × Word)
  step       : Bool
  deriving DecidableEq, Repr

/-- The state after the stop, injections and memory writes of `q`, in the order of R87. DESIGN CHOICE (log 30): R87 orders the
classes of requests only; within one class, and between an injection and a write, it gives no order. Each list is applied front
to back, so of two injections into one element, or two writes to overlapping addresses, the last wins. -/
def State.takeRequests (s : State) (q : Requests) : State :=
  q.writes.foldl (fun u w => (u.hostWriteWord w.1 w.2).2)
    (q.injections.foldl State.hostInject (s.stopIf q.stop))

/-- The requests of one boundary: `reset` first, which makes the others moot, then `stop`, then injections and memory
writes, then `step` (R87). -/
def State.serve (s : State) (q : Requests) : Host.Outcome State Fault Refusal :=
  if q.reset then .next s.hostReset
  else if q.step then Sys2Proof.Machine.step (s.takeRequests q)
  else .next (s.takeRequests q)

end Sys2Proof.Machine
end

