-- ==== Sys2Proof/Safety.lean ====
section
/-! DEFINITION. The terms the claims use: the invariant of the machine between cycles, what instruction a state is about
to execute, and frames, each of which says what an instruction's own execution (step 5 of 40_cycle_driver R70) leaves
unchanged. In a frame `t.mem = s.mem` says that every byte of memory reads as before. -/

namespace Sys2Proof.Machine

/-- What holds between cycles. `configWf`: the constraints on the parameters (00_scope R3). `memWf`, `memMapped`: memory is
in canonical form and has bytes only inside regions (10_state R22). `snapshotsAgree`: after a commit, a reset or an
injection the two snapshots are equal (10_state R17, R18, R25; 40_cycle_driver R84). `noExit`: the exit signal is local
to a cycle. -/
structure State.Inv (s : State) : Prop where
  configWf       : s.config.wf = true
  memWf          : s.mem.wf
  memMapped      : s.mem.withinRegions s.config
  snapshotsAgree : s.nxt = s.cur
  noExit         : s.exit = false

/-- The next cycle is one to which the spec gives behaviour: RUNNING, and `PC` a multiple of 4 (R70, 20_memory R39). -/
def State.cycleStarts (s : State) : Prop := s.run = .running ∧ isAligned s.pc = true

/-- The next cycle decodes and executes the word `w`. -/
def State.fetches (s : State) (w : Word) : Prop := s.cycleStarts ∧ s.fetchedWord = some w

/-- The next cycle executes the instruction `i`. -/
def State.executes (s : State) (i : Instr) : Prop := ∃ w, s.fetches w ∧ decode w = .instr i

/-- The next cycle executes an `Unknown` word. -/
def State.executesUnknown (s : State) : Prop := ∃ w, s.fetches w ∧ decode w = .unknown

/-! ### Frames -/

/-- What no instruction writes (40_cycle_driver R76): the parameters, the current snapshot, `next.PC`, `RUN`, `ICOUNT`. -/
structure DriverKept (s t : State) : Prop where
  config : t.config = s.config
  cur    : t.cur = s.cur
  nextPc : t.nxt.pc = s.nxt.pc
  run    : t.run = s.run
  icount : t.icount = s.icount

/-- No general register is written. -/
def GprsKept (s t : State) : Prop := ∀ j : Reg, t.nxt.reg j = s.nxt.reg j

/-- The instruction writes `v` to register `rd`, `bd` to the pending-branch slot where one is given, and nothing else. -/
structure WritesGpr (s : State) (rd : Reg) (v : Word) (bd : Option Word) (t : State) : Prop where
  driver : DriverKept s t
  result : t.nxt.reg rd = v
  others : ∀ j : Reg, j ≠ rd → t.nxt.reg j = s.nxt.reg j
  hi     : t.nxt.hi = s.nxt.hi
  lo     : t.nxt.lo = s.nxt.lo
  bd     : t.nxt.bd = bd
  mem    : t.mem = s.mem
  diag   : t.diag = s.diag
  exit   : t.exit = s.exit

/-- The instruction leaves `hi`, `lo` in `HI`, `LO`, `bd` in the pending-branch slot, `diag` on the diagnostic output, and
writes nothing else. -/
structure WritesNoGpr (s : State) (hi lo : Word) (bd : Option Word) (diag : Diag) (t : State) : Prop where
  driver : DriverKept s t
  gprs   : GprsKept s t
  hi     : t.nxt.hi = hi
  lo     : t.nxt.lo = lo
  bd     : t.nxt.bd = bd
  mem    : t.mem = s.mem
  diag   : t.diag = diag
  exit   : t.exit = s.exit

/-- The instruction writes nothing at all. -/
def WritesNothing (s t : State) : Prop := WritesNoGpr s s.nxt.hi s.nxt.lo s.nxt.bd s.diag t

/-- The instruction stores the low `n` bytes of `v` at the byte addresses from `a`, least significant first, and writes
nothing else: every byte outside those `n` reads as before. -/
structure StoresBytes (s : State) (a : Nat) (n : Nat) (v : Word) (t : State) : Prop where
  driver  : DriverKept s t
  gprs    : GprsKept s t
  hi      : t.nxt.hi = s.nxt.hi
  lo      : t.nxt.lo = s.nxt.lo
  bd      : t.nxt.bd = s.nxt.bd
  diag    : t.diag = s.diag
  exit    : t.exit = s.exit
  stored  : ∀ k, k < n → t.mem.byte (a + k) = byteOfWord v k
  outside : ∀ b, (b < a ∨ a + n ≤ b) → t.mem.byte b = s.mem.byte b

/-- A cycle that commits no register, `HI`, `LO` or memory change: `PC` is sequenced, `BD` is emptied of what the sequencer
consumed, the cycle counts, the run state stays, and `d` is reported. -/
structure CommitsNothing (s : State) (d : Diag) (t : State) : Prop where
  config : t.config = s.config
  gpr    : t.cur.gpr = s.cur.gpr
  hi     : t.cur.hi = s.cur.hi
  lo     : t.cur.lo = s.cur.lo
  pc     : t.cur.pc = s.sequencedPc
  bd     : t.cur.bd = none
  mem    : t.mem = s.mem
  run    : t.run = s.run
  icount : t.icount = s.icount + 1#32
  diag   : t.diag = d

/-! ### Shapes that several claims share -/

/-- Every R-format word with this `funct` is the instruction, whatever its other fields hold (30_encoding R52, R53, R59). -/
def DecodesR (funct : BitVec 6) (mk : Word → Instr) : Prop :=
  ∀ w, opcodeOf w = 0#6 → functOf w = funct → decode w = .instr (mk w)

/-- Every word with this `opcode` is the instruction (30_encoding R54, R56). -/
def DecodesOpcode (opcode : BitVec 6) (mk : Word → Instr) : Prop :=
  ∀ w, opcodeOf w = opcode → decode w = .instr (mk w)

/-- A load by its memory status (46_load_store R133): a value `v` with `value v` into `rt`; the 0 of an unmapped address; a
no-op with the diagnostic at a region's end. -/
structure LoadsAt (s : State) (a : Word) (rt : Reg) (value : Word → Prop) (t : State) : Prop where
  ok       : wordStatus s.config a = .ok → ∃ v, value v ∧ WritesGpr s rt v s.nxt.bd t
  unmapped : wordStatus s.config a = .unmapped → WritesGpr s rt 0#32 s.nxt.bd t
  span     : wordStatus s.config a = .span → WritesNoGpr s s.nxt.hi s.nxt.lo s.nxt.bd .misalignedSpan t

/-- A store by its memory status (46_load_store R133): the low `n` bytes of `v`; nothing; a no-op with the diagnostic. -/
structure StoresAt (s : State) (a : Word) (n : Nat) (v : Word) (t : State) : Prop where
  ok       : wordStatus s.config a = .ok → StoresBytes s a.toNat n v t
  unmapped : wordStatus s.config a = .unmapped → WritesNothing s t
  span     : wordStatus s.config a = .span → WritesNoGpr s s.nxt.hi s.nxt.lo s.nxt.bd .misalignedSpan t

/-- A conditional branch: taken, it stages the target `imm` instructions from the delay slot, modulo 2^32; not taken, it
writes nothing (47_branch_jump R136, 40_cycle_driver R72). -/
def BranchesWhen (s : State) (imm : BitVec 16) (taken : Prop) (t : State) : Prop :=
  (taken → ∃ bt : Word, (bt.toNat : Int) = (s.pc.toNat + 4 + 4 * imm.toInt) % 2 ^ 32 ∧
    WritesNoGpr s s.nxt.hi s.nxt.lo (some bt) s.diag t) ∧
  (¬ taken → WritesNothing s t)

/-- The target of J and JAL: the top four bits of the delay slot's address, the 26-bit field, two zero bits
(47_branch_jump R143). -/
def IsJumpTarget (pc : Word) (target : BitVec 26) (jt : Word) : Prop :=
  jt.extractLsb' 28 4 = (pc + 4#32).extractLsb' 28 4 ∧ jt.extractLsb' 2 26 = target ∧ jt.extractLsb' 0 2 = 0#2

/-! ### Classes of instructions -/

/-- The register an instruction has as its destination (10_state R12, the table of fields). -/
def destination : Instr → Option Reg
  | .add rd _ _ | .addu rd _ _ | .sub rd _ _ | .subu rd _ _ | .and rd _ _ | .or rd _ _ | .nor rd _ _ | .xor rd _ _ => some rd
  | .slt rd _ _ | .sll rd _ _ | .srl rd _ _ | .sra rd _ _ | .mfhi rd | .mflo rd | .jalr rd _ => some rd
  | .addi rt _ _ | .addiu rt _ _ | .andi rt _ _ | .ori rt _ _ | .xori rt _ _ | .slti rt _ _ | .lui rt _ => some rt
  | .lb rt _ _ | .lh rt _ _ | .lw rt _ _ => some rt
  | .jal _ => some 31
  | .mult .. | .multu .. | .div .. | .divu .. | .mthi .. | .mtlo .. | .jr .. | .j .. => none
  | .sb .. | .sh .. | .sw .. | .beq .. | .bne .. | .bgtz .. | .blez .. | .bgez .. | .bltz .. | .syscall => none

/-- The instructions that can change control flow (40_cycle_driver R72). -/
def isTransfer : Instr → Bool
  | .jr .. | .jalr .. | .j .. | .jal .. => true
  | .beq .. | .bne .. | .bgtz .. | .blez .. | .bgez .. | .bltz .. => true
  | .add .. | .addu .. | .sub .. | .subu .. | .and .. | .or .. | .nor .. | .xor .. | .slt .. => false
  | .sll .. | .srl .. | .sra .. | .mult .. | .multu .. | .div .. | .divu .. => false
  | .mfhi .. | .mflo .. | .mthi .. | .mtlo .. => false
  | .addi .. | .addiu .. | .andi .. | .ori .. | .xori .. | .slti .. | .lui .. => false
  | .lb .. | .lh .. | .lw .. | .sb .. | .sh .. | .sw .. | .syscall => false

/-- The jump-register instructions and the value each jumps to in `s`; they alone can misalign `PC` (10_state R15). -/
def registerTarget (s : State) : Instr → Option Word
  | .jr rs => some (s.x rs)
  | .jalr _ rs => some (s.x rs)
  | .j .. | .jal .. | .beq .. | .bne .. | .bgtz .. | .blez .. | .bgez .. | .bltz .. => none
  | .add .. | .addu .. | .sub .. | .subu .. | .and .. | .or .. | .nor .. | .xor .. | .slt .. => none
  | .sll .. | .srl .. | .sra .. | .mult .. | .multu .. | .div .. | .divu .. => none
  | .mfhi .. | .mflo .. | .mthi .. | .mtlo .. => none
  | .addi .. | .addiu .. | .andi .. | .ori .. | .xori .. | .slti .. | .lui .. => none
  | .lb .. | .lh .. | .lw .. | .sb .. | .sh .. | .sw .. | .syscall => none

/-- The instructions that write `HI` or `LO` (10_state R13). -/
def writesHiLo : Instr → Bool
  | .mult .. | .multu .. | .div .. | .divu .. | .mthi .. | .mtlo .. => true
  | .mfhi .. | .mflo .. | .jr .. | .jalr .. | .j .. | .jal .. => false
  | .beq .. | .bne .. | .bgtz .. | .blez .. | .bgez .. | .bltz .. => false
  | .add .. | .addu .. | .sub .. | .subu .. | .and .. | .or .. | .nor .. | .xor .. | .slt .. => false
  | .sll .. | .srl .. | .sra .. => false
  | .addi .. | .addiu .. | .andi .. | .ori .. | .xori .. | .slti .. | .lui .. => false
  | .lb .. | .lh .. | .lw .. | .sb .. | .sh .. | .sw .. | .syscall => false

/-- The address and the number of bytes a store instruction stores to in `s` (46_load_store R126, R130 to R132). -/
def storeSpan (s : State) : Instr → Option (Word × Nat)
  | .sb _ rs imm => some (effectiveAddress (s.x rs) imm, 1)
  | .sh _ rs imm => some (effectiveAddress (s.x rs) imm, 2)
  | .sw _ rs imm => some (effectiveAddress (s.x rs) imm, 4)
  | .lb .. | .lh .. | .lw .. | .syscall => none
  | .jr .. | .jalr .. | .j .. | .jal .. | .beq .. | .bne .. | .bgtz .. | .blez .. | .bgez .. | .bltz .. => none
  | .add .. | .addu .. | .sub .. | .subu .. | .and .. | .or .. | .nor .. | .xor .. | .slt .. => none
  | .sll .. | .srl .. | .sra .. | .mult .. | .multu .. | .div .. | .divu .. => none
  | .mfhi .. | .mflo .. | .mthi .. | .mtlo .. => none
  | .addi .. | .addiu .. | .andi .. | .ori .. | .xori .. | .slti .. | .lui .. => none

/-- The word of which a store instruction stores the low bytes in `s` (46_load_store R130 to R132). -/
def storedWord (s : State) : Instr → Option Word
  | .sb rt _ _ | .sh rt _ _ | .sw rt _ _ => some (s.x rt)
  | .lb .. | .lh .. | .lw .. | .syscall => none
  | .jr .. | .jalr .. | .j .. | .jal .. | .beq .. | .bne .. | .bgtz .. | .blez .. | .bgez .. | .bltz .. => none
  | .add .. | .addu .. | .sub .. | .subu .. | .and .. | .or .. | .nor .. | .xor .. | .slt .. => none
  | .sll .. | .srl .. | .sra .. | .mult .. | .multu .. | .div .. | .divu .. => none
  | .mfhi .. | .mflo .. | .mthi .. | .mtlo .. => none
  | .addi .. | .addiu .. | .andi .. | .ori .. | .xori .. | .slti .. | .lui .. => none

/-- The effective address of a load or store in `s` (46_load_store R126). -/
def accessAddress (s : State) : Instr → Option Word
  | .lb _ rs imm | .lh _ rs imm | .lw _ rs imm => some (effectiveAddress (s.x rs) imm)
  | .sb _ rs imm | .sh _ rs imm | .sw _ rs imm => some (effectiveAddress (s.x rs) imm)
  | .syscall => none
  | .jr .. | .jalr .. | .j .. | .jal .. | .beq .. | .bne .. | .bgtz .. | .blez .. | .bgez .. | .bltz .. => none
  | .add .. | .addu .. | .sub .. | .subu .. | .and .. | .or .. | .nor .. | .xor .. | .slt .. => none
  | .sll .. | .srl .. | .sra .. | .mult .. | .multu .. | .div .. | .divu .. => none
  | .mfhi .. | .mflo .. | .mthi .. | .mtlo .. => none
  | .addi .. | .addiu .. | .andi .. | .ori .. | .xori .. | .slti .. | .lui .. => none

/-- The divisor of a division in `s` (43_muldiv_hilo R107, R108). -/
def divisorOf (s : State) : Instr → Option Word
  | .div _ rt => some (s.x rt)
  | .divu _ rt => some (s.x rt)
  | .lb .. | .lh .. | .lw .. | .sb .. | .sh .. | .sw .. | .syscall => none
  | .jr .. | .jalr .. | .j .. | .jal .. | .beq .. | .bne .. | .bgtz .. | .blez .. | .bgez .. | .bltz .. => none
  | .add .. | .addu .. | .sub .. | .subu .. | .and .. | .or .. | .nor .. | .xor .. | .slt .. => none
  | .sll .. | .srl .. | .sra .. | .mult .. | .multu .. => none
  | .mfhi .. | .mflo .. | .mthi .. | .mtlo .. => none
  | .addi .. | .addiu .. | .andi .. | .ori .. | .xori .. | .slti .. | .lui .. => none

end Sys2Proof.Machine
end

