-- ==== Sys2Proof/Certificates/Slice0/Obligations.lean ====
section
/-! DEFINITION. The statements for the provers. Statements about one instruction speak of `exec`, step 5 of a cycle
(40_cycle_driver R70); `StepRunsTheDecodedInstruction` carries them to a whole `step`. -/

open Sys2Proof Sys2Proof.Machine

/-! ### Encoding (30_encoding) -/

/-- Words that the spec writes out decode to the instructions it says (95_test_vectors section 2.1; 30_encoding R53 to R58; the
numbers are the spec's own decision D7, log 9). -/
def Obligations.SpecWordsDecode : Prop :=
  decode 0x00221820#32 = .instr (.add 3 1 2) ∧ decode 0x00221FE0#32 = .instr (.add 3 1 2) ∧
  decode 0x00021900#32 = .instr (.sll 3 2 4#5) ∧ decode 0x0022001A#32 = .instr (.div 1 2) ∧
  decode 0x0048D14C#32 = .instr .syscall ∧ decode 0x03FFFFC8#32 = .instr (.jr 31) ∧
  decode 0x20010005#32 = .instr (.addi 1 0 5#16) ∧ decode 0x3FE28000#32 = .instr (.lui 2 0x8000#16) ∧
  decode 0x81090004#32 = .instr (.lb 9 8 4#16) ∧ decode 0xAD0A0000#32 = .instr (.sw 10 8 0#16) ∧
  decode 0x1520FFFD#32 = .instr (.bne 9 0 0xFFFD#16) ∧ decode 0x04210003#32 = .instr (.bgez 1 3#16) ∧
  decode 0x0C100008#32 = .instr (.jal 0x0100008#26) ∧ decode 0x0022182B#32 = .unknown ∧
  decode 0x04310003#32 = .unknown ∧ decode 0x91090000#32 = .unknown ∧ decode 0xFFFFFFFF#32 = .unknown

/-- Decoding an encoded instruction gives it back, as a word and as bytes followed by any others (30_encoding R50 to R57,
20_memory R35). -/
def Obligations.DecodeInvertsEncode : Prop :=
  ∀ i : Instr, i.wellFormed = true →
    decode (encode i) = .instr i ∧
    ∀ rest : List Byte, decodeBytes (bytesOfWord (encode i) ++ rest) = .ok (.instr i, rest)

/-- R59: each word has one meaning, and the fields an instruction does not use may hold any value. A word decodes to `i`
exactly when it is `i`'s encoding but for the bits `i` ignores; the bits that select `i` are those of the rule's mask. For
the I-format this is the spec's own decision D8 (log 10), and the numbers are its decision D7 (log 9). -/
def Obligations.WordsOfAnInstruction : Prop :=
  ∀ (w : Word) (i : Instr), (decode w = .instr i ↔ w &&& ~~~ ignoredBits i = encode i) ∧
    (decode w = .instr i → w &&& selectorMask i = selectorBits i)

/-- R58: the decoder is total, and a word is `Unknown` exactly when its opcode is 0 and its funct is in none of the rows of
R53, or its opcode is 1 and its `rt` field is not 0 or 1, or its opcode is at least 4 and in none of the rows of R54. The
numbers and the closed list are the spec's own decisions D7, D9 (log 9, log 11). -/
def Obligations.UnknownExactlyOffTheMap : Prop :=
  ∀ w : Word, decode w = .unknown ↔
    (opcodeOf w = 0#6 ∧ (functOf w).toNat ∉ [0x00, 0x02, 0x03, 0x08, 0x09, 0x0C, 0x10, 0x11, 0x12, 0x13, 0x18, 0x19, 0x1A,
      0x1B, 0x20, 0x21, 0x22, 0x23, 0x24, 0x25, 0x26, 0x27, 0x2A]) ∨
    (opcodeOf w = 1#6 ∧ (rtField w).toNat ∉ [0, 1]) ∨
    (4 ≤ (opcodeOf w).toNat ∧ (opcodeOf w).toNat ∉ [0x04, 0x05, 0x06, 0x07, 0x08, 0x09, 0x0A, 0x0C, 0x0D, 0x0E, 0x0F, 0x20,
      0x21, 0x23, 0x28, 0x29, 0x2B])

/-- The all-zero word is `SLL r0, r0, 0` (R61); it is what a fetch from an unmapped address returns (40_cycle_driver R75);
and a cycle that executes it commits nothing and reports nothing, whatever register 0 holds. -/
def Obligations.ZeroWordIsANoOperation : Prop :=
  decode 0x00000000#32 = .instr (.sll 0 0 0#5) ∧
  (∀ s : State, s.cycleStarts → wordStatus s.config s.pc = .unmapped → s.fetches 0x00000000#32) ∧
  ∀ s : State, s.fetches 0x00000000#32 → ∃ t, step s = .next t ∧ CommitsNothing s .none t

/-! ### Instructions: what each writes, on every operand and from every state (41 to 48) -/

/-- ADD (R90) and ADDI (R118), whose numbers the source's words give: sums modulo 2^32, the immediate sign-extended, no trap;
identical in every respect to ADDU and ADDIU. -/
def Obligations.AddAndAddImmediateWrapWithoutTrap : Prop :=
  (DecodesR 0x20#6 fun w => .add (rdOf w) (rsOf w) (rtOf w)) ∧
  (DecodesOpcode 0x08#6 fun w => .addi (rtOf w) (rsOf w) (immOf w)) ∧
  (∀ (rd rs rt : Reg) (s : State), exec (.add rd rs rt) s = exec (.addu rd rs rt) s ∧ ∃ sum : Word,
    sum.toNat = ((s.x rs).toNat + (s.x rt).toNat) % 2 ^ 32 ∧
    ∃ t, exec (.add rd rs rt) s = .next t ∧ WritesGpr s rd sum s.nxt.bd t) ∧
  (∀ (rt rs : Reg) (imm : BitVec 16) (s : State), exec (.addi rt rs imm) s = exec (.addiu rt rs imm) s ∧ ∃ sum : Word,
    (sum.toNat : Int) = ((s.x rs).toNat + imm.toInt) % 2 ^ 32 ∧
    ∃ t, exec (.addi rt rs imm) s = .next t ∧ WritesGpr s rt sum s.nxt.bd t)

/-- ADDU, SUB, SUBU (R91 to R93): sums and differences modulo 2^32, no trap; `rs` is the minuend. Their funct numbers and the
operand roles are the spec's own decisions D7, D19 (log 9, log 15). -/
def Obligations.AddUnsignedAndSubtractWrapWithoutTrap : Prop :=
  (DecodesR 0x21#6 fun w => .addu (rdOf w) (rsOf w) (rtOf w)) ∧
  (DecodesR 0x22#6 fun w => .sub (rdOf w) (rsOf w) (rtOf w)) ∧ (DecodesR 0x23#6 fun w => .subu (rdOf w) (rsOf w) (rtOf w)) ∧
  ∀ (rd rs rt : Reg) (s : State), ∃ sum difference : Word,
    sum.toNat = ((s.x rs).toNat + (s.x rt).toNat) % 2 ^ 32 ∧
    (difference.toNat : Int) = ((s.x rs).toNat - (s.x rt).toNat : Int) % 2 ^ 32 ∧
    (∃ t, exec (.addu rd rs rt) s = .next t ∧ WritesGpr s rd sum s.nxt.bd t) ∧
    (∃ t, exec (.sub rd rs rt) s = .next t ∧ WritesGpr s rd difference s.nxt.bd t) ∧
    (∃ t, exec (.subu rd rs rt) s = .next t ∧ WritesGpr s rd difference s.nxt.bd t)

/-- AND, OR, NOR, XOR (R94 to R97), bit by bit. Their funct numbers are the spec's own decision D7 (log 9). -/
def Obligations.LogicIsBitwise : Prop :=
  (DecodesR 0x24#6 fun w => .and (rdOf w) (rsOf w) (rtOf w)) ∧ (DecodesR 0x25#6 fun w => .or (rdOf w) (rsOf w) (rtOf w)) ∧
  (DecodesR 0x27#6 fun w => .nor (rdOf w) (rsOf w) (rtOf w)) ∧ (DecodesR 0x26#6 fun w => .xor (rdOf w) (rsOf w) (rtOf w)) ∧
  ∀ (rd rs rt : Reg) (s : State), ∃ a o n x : Word,
    (∀ k, k < 32 →
      a.getLsbD k = ((s.x rs).getLsbD k && (s.x rt).getLsbD k) ∧ o.getLsbD k = ((s.x rs).getLsbD k || (s.x rt).getLsbD k) ∧
      n.getLsbD k = !((s.x rs).getLsbD k || (s.x rt).getLsbD k) ∧ x.getLsbD k = ((s.x rs).getLsbD k ^^ (s.x rt).getLsbD k)) ∧
    (∃ t, exec (.and rd rs rt) s = .next t ∧ WritesGpr s rd a s.nxt.bd t) ∧
    (∃ t, exec (.or rd rs rt) s = .next t ∧ WritesGpr s rd o s.nxt.bd t) ∧
    (∃ t, exec (.nor rd rs rt) s = .next t ∧ WritesGpr s rd n s.nxt.bd t) ∧
    (∃ t, exec (.xor rd rs rt) s = .next t ∧ WritesGpr s rd x s.nxt.bd t)

/-- SLT and SLTI (R98, R123): 1 or 0 by a signed comparison; SLTI's immediate is sign-extended. The numbers, the
operand order and SLTI's signedness are the spec's own decisions D7, D19 (log 9, log 15). -/
def Obligations.SetOnLessIsSigned : Prop :=
  (DecodesR 0x2A#6 fun w => .slt (rdOf w) (rsOf w) (rtOf w)) ∧
  (DecodesOpcode 0x0A#6 fun w => .slti (rtOf w) (rsOf w) (immOf w)) ∧
  (∀ (rd rs rt : Reg) (s : State), ∃ t, exec (.slt rd rs rt) s = .next t ∧
    WritesGpr s rd (if (s.x rs).toInt < (s.x rt).toInt then 0x00000001#32 else 0x00000000#32) s.nxt.bd t) ∧
  (∀ (rt rs : Reg) (imm : BitVec 16) (s : State), ∃ t, exec (.slti rt rs imm) s = .next t ∧
    WritesGpr s rt (if (s.x rs).toInt < imm.toInt then 0x00000001#32 else 0x00000000#32) s.nxt.bd t)

/-- SLL, SRL, SRA (R100 to R102): multiplication modulo 2^32, and division by a power of two rounded down, unsigned for SRL
and signed for SRA. Their funct numbers are the spec's own decision D7 (log 9). -/
def Obligations.ShiftsScaleByPowersOfTwo : Prop :=
  (DecodesR 0x00#6 fun w => .sll (rdOf w) (rtOf w) (shamtOf w)) ∧ (DecodesR 0x02#6 fun w => .srl (rdOf w) (rtOf w) (shamtOf w)) ∧
  (DecodesR 0x03#6 fun w => .sra (rdOf w) (rtOf w) (shamtOf w)) ∧
  ∀ (rd rt : Reg) (shamt : BitVec 5) (s : State), ∃ l r a : Word,
    l.toNat = (s.x rt).toNat * 2 ^ shamt.toNat % 2 ^ 32 ∧ r.toNat = (s.x rt).toNat / 2 ^ shamt.toNat ∧
    a.toInt = Int.fdiv (s.x rt).toInt (2 ^ shamt.toNat) ∧
    (∃ t, exec (.sll rd rt shamt) s = .next t ∧ WritesGpr s rd l s.nxt.bd t) ∧
    (∃ t, exec (.srl rd rt shamt) s = .next t ∧ WritesGpr s rd r s.nxt.bd t) ∧
    (∃ t, exec (.sra rd rt shamt) s = .next t ∧ WritesGpr s rd a s.nxt.bd t)

/-- MULT and MULTU (R105, R106): `HI` and `LO` hold the upper and the lower half of the exact product, the signed one as a
64-bit two's-complement pattern. The funct numbers and which form is signed are the spec's own decisions D7, D19 (log 9,
log 15). -/
def Obligations.ProductFillsHiAndLo : Prop :=
  (DecodesR 0x18#6 fun w => .mult (rsOf w) (rtOf w)) ∧ (DecodesR 0x19#6 fun w => .multu (rsOf w) (rtOf w)) ∧
  ∀ (rs rt : Reg) (s : State),
    (∃ t hi lo, exec (.mult rs rt) s = .next t ∧
      ((hi.toNat * 2 ^ 32 + lo.toNat : Nat) : Int) = ((s.x rs).toInt * (s.x rt).toInt) % 2 ^ 64 ∧
      WritesNoGpr s hi lo s.nxt.bd s.diag t) ∧
    (∃ t hi lo, exec (.multu rs rt) s = .next t ∧
      hi.toNat * 2 ^ 32 + lo.toNat = (s.x rs).toNat * (s.x rt).toNat ∧ WritesNoGpr s hi lo s.nxt.bd s.diag t)

/-- DIV (R107): a zero divisor leaves `HI` and `LO` and reports it; otherwise the quotient rounded toward zero goes to `LO`
and the remainder, of the dividend's sign, to `HI`, each modulo 2^32. The rounding and the overflow case are the
spec's own decision D10 (log 14), the funct number and the operand roles D7, D19 (log 9, log 15). -/
def Obligations.SignedDivisionTruncates : Prop :=
  (DecodesR 0x1A#6 fun w => .div (rsOf w) (rtOf w)) ∧
  ∀ (rs rt : Reg) (s : State), ∃ t, exec (.div rs rt) s = .next t ∧
    (s.x rt = 0#32 → WritesNoGpr s s.nxt.hi s.nxt.lo s.nxt.bd .divideByZero t) ∧
    (s.x rt ≠ 0#32 → ∃ q r : Int, (s.x rs).toInt = q * (s.x rt).toInt + r ∧ |r| < |(s.x rt).toInt| ∧
      (r = 0 ∨ (r < 0 ↔ (s.x rs).toInt < 0)) ∧
      WritesNoGpr s (BitVec.ofInt 32 r) (BitVec.ofInt 32 q) s.nxt.bd s.diag t)

/-- DIVU (R108): a zero divisor leaves `HI` and `LO` and reports it; otherwise `LO` and `HI` hold the unsigned quotient,
rounded down, and remainder. The funct number and the operand roles are the spec's own decisions D7, D19 (log 9, log 15). -/
def Obligations.UnsignedDivisionRoundsDown : Prop :=
  (DecodesR 0x1B#6 fun w => .divu (rsOf w) (rtOf w)) ∧
  ∀ (rs rt : Reg) (s : State), ∃ t, exec (.divu rs rt) s = .next t ∧
    (s.x rt = 0#32 → WritesNoGpr s s.nxt.hi s.nxt.lo s.nxt.bd .divideByZero t) ∧
    (s.x rt ≠ 0#32 → ∃ hi lo : Word, (s.x rs).toNat = lo.toNat * (s.x rt).toNat + hi.toNat ∧ hi.toNat < (s.x rt).toNat ∧
      WritesNoGpr s hi lo s.nxt.bd s.diag t)

/-- MFHI, MFLO, MTHI, MTLO (R109 to R112). The funct numbers and the fields they name are the spec's own decisions D7, D19
(log 9, log 15). -/
def Obligations.HiLoMovesCopy : Prop :=
  (DecodesR 0x10#6 fun w => .mfhi (rdOf w)) ∧ (DecodesR 0x12#6 fun w => .mflo (rdOf w)) ∧
  (DecodesR 0x11#6 fun w => .mthi (rsOf w)) ∧ (DecodesR 0x13#6 fun w => .mtlo (rsOf w)) ∧
  ∀ (r : Reg) (s : State),
    (∃ t, exec (.mfhi r) s = .next t ∧ WritesGpr s r s.cur.hi s.nxt.bd t) ∧
    (∃ t, exec (.mflo r) s = .next t ∧ WritesGpr s r s.cur.lo s.nxt.bd t) ∧
    (∃ t, exec (.mthi r) s = .next t ∧ WritesNoGpr s (s.x r) s.nxt.lo s.nxt.bd s.diag t) ∧
    (∃ t, exec (.mtlo r) s = .next t ∧ WritesNoGpr s s.nxt.hi (s.x r) s.nxt.bd s.diag t)

/-- JR and JALR (R115, R116): the whole register value is staged; JALR links `pc + 8` modulo 2^32 into `rd`, also when `rd`
is the register jumped through or register 0. The funct numbers are the spec's own decision D7 (log 9). -/
def Obligations.JumpRegisterStagesAndLinks : Prop :=
  (DecodesR 0x08#6 fun w => .jr (rsOf w)) ∧ (DecodesR 0x09#6 fun w => .jalr (rdOf w) (rsOf w)) ∧
  (∀ (rs : Reg) (s : State), ∃ t, exec (.jr rs) s = .next t ∧
    WritesNoGpr s s.nxt.hi s.nxt.lo (some (s.x rs)) s.diag t) ∧
  (∀ (rd rs : Reg) (s : State), ∃ t link, exec (.jalr rd rs) s = .next t ∧ link.toNat = (s.pc.toNat + 8) % 2 ^ 32 ∧
    WritesGpr s rd link (some (s.x rs)) t)

/-- ADDIU (R119): the sign-extended immediate is added modulo 2^32, no trap. LUI (R124): the immediate goes in the upper half,
zero in the lower. Their opcode numbers are the spec's own decision D7 (log 9). -/
def Obligations.AddImmediateUnsignedAndUpperImmediate : Prop :=
  (DecodesOpcode 0x09#6 fun w => .addiu (rtOf w) (rsOf w) (immOf w)) ∧
  (DecodesOpcode 0x0F#6 fun w => .lui (rtOf w) (immOf w)) ∧
  ∀ (rt rs : Reg) (imm : BitVec 16) (s : State), ∃ sum upper : Word,
    (sum.toNat : Int) = ((s.x rs).toNat + imm.toInt) % 2 ^ 32 ∧ upper.toNat = imm.toNat * 2 ^ 16 ∧
    (∃ t, exec (.addiu rt rs imm) s = .next t ∧ WritesGpr s rt sum s.nxt.bd t) ∧
    (∃ t, exec (.lui rt imm) s = .next t ∧ WritesGpr s rt upper s.nxt.bd t)

/-- ANDI, ORI, XORI (R120 to R122): bit by bit with the immediate, whose bits from 16 up count as 0. Their opcode
numbers are the spec's own decision D7 (log 9). -/
def Obligations.LogicImmediateZeroExtends : Prop :=
  (DecodesOpcode 0x0C#6 fun w => .andi (rtOf w) (rsOf w) (immOf w)) ∧
  (DecodesOpcode 0x0D#6 fun w => .ori (rtOf w) (rsOf w) (immOf w)) ∧
  (DecodesOpcode 0x0E#6 fun w => .xori (rtOf w) (rsOf w) (immOf w)) ∧
  ∀ (rt rs : Reg) (imm : BitVec 16) (s : State), ∃ a o x : Word,
    (∀ k, k < 32 → a.getLsbD k = ((s.x rs).getLsbD k && (decide (k < 16) && imm.getLsbD k)) ∧
      o.getLsbD k = ((s.x rs).getLsbD k || (decide (k < 16) && imm.getLsbD k)) ∧
      x.getLsbD k = ((s.x rs).getLsbD k ^^ (decide (k < 16) && imm.getLsbD k))) ∧
    (∃ t, exec (.andi rt rs imm) s = .next t ∧ WritesGpr s rt a s.nxt.bd t) ∧
    (∃ t, exec (.ori rt rs imm) s = .next t ∧ WritesGpr s rt o s.nxt.bd t) ∧
    (∃ t, exec (.xori rt rs imm) s = .next t ∧ WritesGpr s rt x s.nxt.bd t)

/-- LB, LH, LW (R126 to R129): the effective address is the base plus the signed displacement modulo 2^32; the 1, 2 or 4 bytes
from it, lowest address least significant, are loaded as a signed number; an unmapped address loads 0. The opcode numbers, the
word that begins at the address deciding the status, and the 0 are the spec's own decisions D7, D5, D24 (log 9, log 12,
log 13). -/
def Obligations.LoadsReadTheirBytes : Prop :=
  (DecodesOpcode 0x20#6 fun w => .lb (rtOf w) (rsOf w) (immOf w)) ∧
  (DecodesOpcode 0x21#6 fun w => .lh (rtOf w) (rsOf w) (immOf w)) ∧
  (DecodesOpcode 0x23#6 fun w => .lw (rtOf w) (rsOf w) (immOf w)) ∧
  ∀ (rt rs : Reg) (imm : BitVec 16) (s : State), ∃ ea : Word,
    (ea.toNat : Int) = ((s.x rs).toNat + imm.toInt) % 2 ^ 32 ∧
    (∃ t, exec (.lb rt rs imm) s = .next t ∧ LoadsAt s ea rt (fun v => v.toInt = (s.mem.byte ea.toNat).toInt) t) ∧
    (∃ t, exec (.lh rt rs imm) s = .next t ∧ LoadsAt s ea rt (fun v => v.toInt =
      (BitVec.ofNat 16 ((s.mem.byte ea.toNat).toNat + 2 ^ 8 * (s.mem.byte (ea.toNat + 1)).toNat)).toInt) t) ∧
    (∃ t, exec (.lw rt rs imm) s = .next t ∧ LoadsAt s ea rt (fun v => v.toNat = (s.mem.byte ea.toNat).toNat +
      2 ^ 8 * (s.mem.byte (ea.toNat + 1)).toNat + 2 ^ 16 * (s.mem.byte (ea.toNat + 2)).toNat +
      2 ^ 24 * (s.mem.byte (ea.toNat + 3)).toNat) t)

/-- SB, SH, SW (R126, R130 to R132): the 1, 2 or 4 bytes from the effective address take the low bytes of `x[rt]`; no other
byte changes. The effective address is the base plus the signed displacement modulo 2^32. The premise is the canonical
form of memory, which every step keeps (`StepKeepsTheInvariant`). The opcode numbers and the word that begins at the
address deciding the status are the spec's own decisions D7, D5 (log 9, log 12). -/
def Obligations.StoresWriteTheirBytes : Prop :=
  (DecodesOpcode 0x28#6 fun w => .sb (rtOf w) (rsOf w) (immOf w)) ∧
  (DecodesOpcode 0x29#6 fun w => .sh (rtOf w) (rsOf w) (immOf w)) ∧
  (DecodesOpcode 0x2B#6 fun w => .sw (rtOf w) (rsOf w) (immOf w)) ∧
  ∀ (rt rs : Reg) (imm : BitVec 16) (s : State), s.mem.wf →
    ((effectiveAddress (s.x rs) imm).toNat : Int) = ((s.x rs).toNat + imm.toInt) % 2 ^ 32 ∧
    (∃ t, exec (.sb rt rs imm) s = .next t ∧ StoresAt s (effectiveAddress (s.x rs) imm) 1 (s.x rt) t) ∧
    (∃ t, exec (.sh rt rs imm) s = .next t ∧ StoresAt s (effectiveAddress (s.x rs) imm) 2 (s.x rt) t) ∧
    (∃ t, exec (.sw rt rs imm) s = .next t ∧ StoresAt s (effectiveAddress (s.x rs) imm) 4 (s.x rt) t)

/-- A span-faulted access of any of the six (R133): the whole cycle is a no-op that reports `MISALIGNED_SPAN`; and a store to
an unmapped address is a no-op that reports nothing. That the span check applies to byte and halfword accesses is the
spec's own decision D5 (log 12). -/
def Obligations.SpanAndUnmappedAccessesCommitNothing : Prop :=
  ∀ (s : State) (i : Instr) (a : Word), s.executes i → accessAddress s i = some a →
    (wordStatus s.config a = .span → ∃ t, step s = .next t ∧ CommitsNothing s .misalignedSpan t) ∧
    (wordStatus s.config a = .unmapped → destination i = none → ∃ t, step s = .next t ∧ CommitsNothing s .none t)

/-- BEQ, BNE, BGTZ, BLEZ, BGEZ, BLTZ (R136 to R142): the condition of each, and the target staged. The compare-with-zero
branches are signed. The numbers and the conditions are the spec's own decisions D7, D19 (log 9, log 15). -/
def Obligations.BranchesStageTheirTarget : Prop :=
  (DecodesOpcode 0x04#6 fun w => .beq (rsOf w) (rtOf w) (immOf w)) ∧
  (DecodesOpcode 0x05#6 fun w => .bne (rsOf w) (rtOf w) (immOf w)) ∧
  (DecodesOpcode 0x07#6 fun w => .bgtz (rsOf w) (immOf w)) ∧ (DecodesOpcode 0x06#6 fun w => .blez (rsOf w) (immOf w)) ∧
  (∀ w, opcodeOf w = 1#6 → rtField w = 1#5 → decode w = .instr (.bgez (rsOf w) (immOf w))) ∧
  (∀ w, opcodeOf w = 1#6 → rtField w = 0#5 → decode w = .instr (.bltz (rsOf w) (immOf w))) ∧
  ∀ (rs rt : Reg) (imm : BitVec 16) (s : State),
    (∃ t, exec (.beq rs rt imm) s = .next t ∧ BranchesWhen s imm (s.x rs = s.x rt) t) ∧
    (∃ t, exec (.bne rs rt imm) s = .next t ∧ BranchesWhen s imm (s.x rs ≠ s.x rt) t) ∧
    (∃ t, exec (.bgtz rs imm) s = .next t ∧ BranchesWhen s imm ((s.x rs).toInt > 0) t) ∧
    (∃ t, exec (.blez rs imm) s = .next t ∧ BranchesWhen s imm ((s.x rs).toInt ≤ 0) t) ∧
    (∃ t, exec (.bgez rs imm) s = .next t ∧ BranchesWhen s imm ((s.x rs).toInt ≥ 0) t) ∧
    (∃ t, exec (.bltz rs imm) s = .next t ∧ BranchesWhen s imm ((s.x rs).toInt < 0) t)

/-- J and JAL (R143, R144): the target of the 26-bit field in the delay slot's 256 MB segment is staged; JAL links `pc + 8`
modulo 2^32 in register 31. -/
def Obligations.JumpsStageTheirTarget : Prop :=
  (DecodesOpcode 0x02#6 fun w => .j (targetOf w)) ∧ (DecodesOpcode 0x03#6 fun w => .jal (targetOf w)) ∧
  ∀ (target : BitVec 26) (s : State), ∃ jt link : Word,
    IsJumpTarget s.pc target jt ∧ link.toNat = (s.pc.toNat + 8) % 2 ^ 32 ∧
    (∃ t, exec (.j target) s = .next t ∧ WritesNoGpr s s.nxt.hi s.nxt.lo (some jt) s.diag t) ∧
    (∃ t, exec (.jal target) s = .next t ∧ WritesGpr s 31 link (some jt) t)

/-- SYSCALL (R146): register 2 equal to 0xA signals exit and does nothing else; any other value makes it a no-op. -/
def Obligations.SyscallSignalsExitOnly : Prop :=
  (DecodesR 0x0C#6 fun _ => .syscall) ∧
  ∀ s : State, ∃ t, exec .syscall s = .next t ∧
    (s.x 2 = 0x0000000A#32 → t = { s with exit := true }) ∧ (s.x 2 ≠ 0x0000000A#32 → t = s)

/-- `Unknown` (R147): a cycle that commits nothing and reports `UNKNOWN_OPCODE`. -/
def Obligations.UnknownWordCommitsNothing : Prop :=
  ∀ s : State, s.executesUnknown → ∃ t, step s = .next t ∧ CommitsNothing s .unknownOpcode t

/-! ### Whole-machine rules over all instructions -/

/-- Every instruction completes from every state, and writes neither the current snapshot nor `next.PC`, `RUN` or `ICOUNT`
(40_cycle_driver R76). -/
def Obligations.EveryInstructionCompletes : Prop :=
  ∀ (i : Instr) (s : State), ∃ t, exec i s = .next t ∧ DriverKept s t

/-- A cycle changes no general register but the destination its instruction's fields name (10_state R12), and `HI` or `LO` only
if it executes MULT, MULTU, DIV, DIVU, MTHI or MTLO (10_state R13). -/
def Obligations.OnlyTheDestinationChanges : Prop :=
  ∀ s t : State, s.run = .running → step s = .next t →
    (∀ j, t.cur.reg j ≠ s.cur.reg j → ∃ i, s.executes i ∧ destination i = some j) ∧
    ((t.cur.hi ≠ s.cur.hi ∨ t.cur.lo ≠ s.cur.lo) → ∃ i, s.executes i ∧ writesHiLo i = true)

/-- A cycle changes memory only by a store, only in the bytes the store is of, and only where the four bytes from its address
lie in one region (20_memory R37, R42; 46_load_store R133). The premise is the canonical form of memory. -/
def Obligations.MemoryChangesOnlyByStores : Prop :=
  ∀ (s t : State) (b : Nat), s.mem.wf → step s = .next t → t.mem.byte b ≠ s.mem.byte b →
    ∃ i a n, s.executes i ∧ storeSpan s i = some (a, n) ∧ wordStatus s.config a = .ok ∧ a.toNat ≤ b ∧ b < a.toNat + n

/-- Register 0 is not hardwired: the consequences 10_state R11 lists (ADDI r0, r0, 5; the all-zero word; JALR with rd 0; LW, LH and
LB with rt 0 and status OK), an injection, the 0 of reset, which is the spec's own decision D2 (log 2), and that only an
instruction with register 0 as its destination changes it. -/
def Obligations.RegisterZeroIsOrdinary : Prop :=
  (∀ s, s.executes (.addi 0 0 5#16) → ∃ t, step s = .next t ∧ t.cur.reg 0 = s.cur.reg 0 + 5#32) ∧
  (∀ s, s.executes (.sll 0 0 0#5) → ∃ t, step s = .next t ∧ t.cur.reg 0 = s.cur.reg 0) ∧
  (∀ s rs, s.executes (.jalr 0 rs) → ∃ t, step s = .next t ∧ t.cur.reg 0 = s.cur.pc + 8#32) ∧
  (∀ s rs imm v, s.executes (.lw 0 rs imm) → readWord s.config s.mem (effectiveAddress (s.x rs) imm) = .ok v →
    ∃ t, step s = .next t ∧ t.cur.reg 0 = v) ∧
  (∀ s rs imm v, s.executes (.lh 0 rs imm) → memRead s.config s.mem 16 (effectiveAddress (s.x rs) imm) = .ok v →
    ∃ t, step s = .next t ∧ t.cur.reg 0 = v.signExtend 32) ∧
  (∀ s rs imm v, s.executes (.lb 0 rs imm) → memRead s.config s.mem 8 (effectiveAddress (s.x rs) imm) = .ok v →
    ∃ t, step s = .next t ∧ t.cur.reg 0 = v.signExtend 32) ∧
  (∀ (s : State) (v : Word), (s.hostInject ⟨.gpr 0, v⟩).x 0 = v) ∧ (∀ s : State, s.hostReset.x 0 = 0#32) ∧
  ∀ s t, s.run = .running → step s = .next t → t.cur.reg 0 ≠ s.cur.reg 0 → ∃ i, s.executes i ∧ destination i = some 0

/-- No event redirects control flow, and a diagnostic changes nothing (60_exceptions R150): every cycle sequences `PC` as ever;
one that reports a diagnostic commits no register, `HI`, `LO`, memory or run state change, and counts; an access to an
unmapped address reports none. -/
def Obligations.DiagnosticsChangeNothing : Prop :=
  ∀ s t : State, s.run = .running → step s = .next t →
    t.cur.pc = s.sequencedPc ∧ (t.diag ≠ .none → CommitsNothing s t.diag t) ∧
    ∀ i a, s.executes i → accessAddress s i = some a → wordStatus s.config a = .unmapped → t.diag = .none

/-- The complete list of diagnostics and their conditions (60_exceptions R151, R158). The form of a report is the spec's own
decision D14 (log 6). -/
def Obligations.DiagnosticsByCause : Prop :=
  ∀ s t : State, s.run = .running → step s = .next t →
    (t.diag = .unknownOpcode ↔ s.executesUnknown) ∧
    (t.diag = .divideByZero ↔ ∃ i, s.executes i ∧ divisorOf s i = some 0#32) ∧
    (t.diag = .misalignedSpan ↔ s.fetchedWord = none ∨
      ∃ i a, s.executes i ∧ accessAddress s i = some a ∧ wordStatus s.config a = .span)

/-! ### Memory primitives (20_memory) -/

/-- `Region(a)` is the unique region that owns the first byte address, or none (R32). -/
def Obligations.RegionIsTheUniqueOwner : Prop :=
  ∀ (c : Config) (a : Word), c.wf = true →
    (∀ r, regionOf c a = some r ↔ r ∈ c.regions ∧ r.base ≤ a.toNat ∧ a.toNat < r.base + r.size) ∧
    (regionOf c a = none ↔ ∀ r ∈ c.regions, ¬ (r.base ≤ a.toNat ∧ a.toNat < r.base + r.size))

/-- `ReadWord` (R33): 0 with UNMAPPED, no value with SPAN, else the four bytes little-endian. That the span check is on integers
and does not wrap (R40) is the spec's own decision D18 (log 19); that SPAN returns no value is its decision D21 (log 26). -/
def Obligations.ReadWordOutcomes : Prop :=
  ∀ (c : Config) (m : Memory) (a : Word),
    (regionOf c a = none → readWord c m a = .unmapped 0#32) ∧
    ∀ r, regionOf c a = some r →
      (a.toNat + 3 ≥ r.base + r.size → readWord c m a = .span) ∧
      (a.toNat + 3 < r.base + r.size → ∃ v, readWord c m a = .ok v ∧ v.toNat = (m.byte a.toNat).toNat +
        2 ^ 8 * (m.byte (a.toNat + 1)).toNat + 2 ^ 16 * (m.byte (a.toNat + 2)).toNat + 2 ^ 24 * (m.byte (a.toNat + 3)).toNat)

/-- `WriteWord` (R34): nothing is written with UNMAPPED or SPAN, else exactly four bytes, little-endian. That the span check is
on integers and does not wrap (R40) is the spec's own decision D18 (log 19). -/
def Obligations.WriteWordOutcomes : Prop :=
  ∀ (c : Config) (m : Memory) (a v : Word), m.wf →
    (regionOf c a = none → writeWord c m a v = (.unmapped, m)) ∧
    ∀ r, regionOf c a = some r →
      (a.toNat + 3 ≥ r.base + r.size → writeWord c m a v = (.span, m)) ∧
      (a.toNat + 3 < r.base + r.size → ∃ m', writeWord c m a v = (.ok, m') ∧
        m'.byte a.toNat = v.extractLsb' 0 8 ∧ m'.byte (a.toNat + 1) = v.extractLsb' 8 8 ∧
        m'.byte (a.toNat + 2) = v.extractLsb' 16 8 ∧ m'.byte (a.toNat + 3) = v.extractLsb' 24 8 ∧
        ∀ b, (b < a.toNat ∨ a.toNat + 4 ≤ b) → m'.byte b = m.byte b)

/-- `MemRead` takes the low bytes of the word that begins at the address, with that word's status (R36); `MemWrite` of `n` bytes
changes exactly those `n` bytes, or none (R37). -/
def Obligations.SubwordAccesses : Prop :=
  ∀ (c : Config) (m : Memory) (a v : Word) (n : Nat), m.wf → n ∈ [1, 2, 4] →
    (wordStatus c a = .span → memRead c m (8 * n) a = .span ∧ memWrite c m (8 * n) a v = (.span, m)) ∧
    (wordStatus c a = .unmapped →
      memRead c m (8 * n) a = .unmapped (BitVec.ofNat (8 * n) 0) ∧ memWrite c m (8 * n) a v = (.unmapped, m)) ∧
    (wordStatus c a = .ok →
      (∃ w u, readWord c m a = .ok w ∧ memRead c m (8 * n) a = .ok u ∧ u.toNat = w.toNat % 2 ^ (8 * n)) ∧
      ∃ m', memWrite c m (8 * n) a v = (.ok, m') ∧ (∀ k, k < n → m'.byte (a.toNat + k) = byteOfWord v k) ∧
        ∀ b, (b < a.toNat ∨ a.toNat + n ≤ b) → m'.byte b = m.byte b)

/-- The source's properties of memory (R47): round trip where the four bytes lie in one region, reads of 0 and lost writes where
the address is unmapped, and the SB scenario. -/
def Obligations.MemoryRoundTrip : Prop :=
  ∀ (s : State) (a v : Word), s.mem.wf →
    (wordStatus s.config a = .ok → readWord s.config (writeWord s.config s.mem a v).2 a = .ok v) ∧
    (wordStatus s.config a = .unmapped →
      readWord s.config s.mem a = .unmapped 0#32 ∧ (writeWord s.config s.mem a v).2 = s.mem) ∧
    (∀ rt rs imm, a = effectiveAddress (s.x rs) imm → readWord s.config s.mem a = .ok 0x00000000#32 →
      s.x rt = 0x000000AB#32 →
      ∃ t, exec (.sb rt rs imm) s = .next t ∧ readWord t.config t.mem a = .ok 0x000000AB#32)

/-- Accesses of different widths see one little-endian memory (R35): after a word is written, its four bytes and its two
halves are read back from the addresses the rule gives. -/
def Obligations.MixedWidthsAreLittleEndian : Prop :=
  ∀ (c : Config) (m m' : Memory) (a v : Word), c.wf = true → m.wf → memWrite c m 32 a v = (.ok, m') →
    memRead c m' 8 a = .ok (v.extractLsb' 0 8) ∧ memRead c m' 16 a = .ok (v.extractLsb' 0 16) ∧
    (wordStatus c (a + 1#32) = .ok → memRead c m' 8 (a + 1#32) = .ok (v.extractLsb' 8 8)) ∧
    (wordStatus c (a + 2#32) = .ok → memRead c m' 8 (a + 2#32) = .ok (v.extractLsb' 16 8) ∧
      memRead c m' 16 (a + 2#32) = .ok (v.extractLsb' 16 16)) ∧
    (wordStatus c (a + 3#32) = .ok → memRead c m' 8 (a + 3#32) = .ok (v.extractLsb' 24 8))

/-- SPAN arises only at one of the last three byte addresses of a region, never at a multiple of 4 (R38, R39). -/
def Obligations.SpanOnlyInTheLastThreeBytes : Prop :=
  ∀ (c : Config) (a : Word), c.wf = true → wordStatus c a = .span →
    isAligned a = false ∧ ∃ r ∈ c.regions, r.base ≤ a.toNat ∧ r.base + r.size ≤ a.toNat + 3 ∧ a.toNat < r.base + r.size

/-- A store, SB, SH or SW, is seen by the very next fetch (R44): of the four bytes the next cycle fetches, those the store is of
are the stored ones, and the others are as before. The store's address need not be the fetch's. That a byte or halfword store
is of the word that begins at its address is the spec's own decision D5 (log 12). -/
def Obligations.StoreIsSeenByTheNextFetch : Prop :=
  ∀ (s : State) (i : Instr) (a : Word) (n : Nat) (v : Word), s.mem.wf → s.executes i →
    storeSpan s i = some (a, n) → storedWord s i = some v → wordStatus s.config a = .ok →
    ∃ t, step s = .next t ∧ t.pc = s.sequencedPc ∧
      (wordStatus s.config t.pc = .ok → ∃ w, t.fetchedWord = some w ∧ ∀ k, k < 4 →
        byteOfWord w k = if a.toNat ≤ t.pc.toNat + k ∧ t.pc.toNat + k < a.toNat + n
          then byteOfWord v (t.pc.toNat + k - a.toNat) else s.mem.byte (t.pc.toNat + k))

/-! ### The cycle, the sequencer and the delay slot (40_cycle_driver) -/

/-- A step runs the decoded instruction (R70, R76): around `exec` it seeds the next snapshot from the current one, sequences
`PC`, clears the diagnostic and the exit signal, and afterwards commits, counts, and halts where exit was signalled. -/
def Obligations.StepRunsTheDecodedInstruction : Prop :=
  (∀ (s : State) (i : Instr), s.executes i → step s = finishOutcome (exec i s.prepare)) ∧
  (∀ s : State, s.prepare.nxt = { s.cur with pc := s.sequencedPc, bd := none } ∧ s.prepare.cur = s.cur ∧
    s.prepare.mem = s.mem ∧ s.prepare.config = s.config ∧ s.prepare.run = s.run ∧ s.prepare.icount = s.icount ∧
    s.prepare.diag = .none ∧ s.prepare.exit = false) ∧
  (∀ t : State, finishOutcome (.next t) = .next t.finish ∧ t.finish.cur = t.nxt ∧ t.finish.nxt = t.nxt ∧
    t.finish.mem = t.mem ∧ t.finish.config = t.config ∧ t.finish.icount = t.icount + 1#32 ∧ t.finish.diag = t.diag ∧
    t.finish.run = (if t.exit then .halted else t.run) ∧ t.finish.exit = false)

/-- The only fault of the machine is a cycle that starts with an unaligned `PC`; every other step answers a next state, and
none is refused (20_memory R39, 60_exceptions R150). That such a cycle is a model fault is the spec's own decision D6 (log 7);
that a step while HALTED answers a next state, with an unaligned `PC` too, is its decision D12 (log 17). -/
def Obligations.OnlyAnUnalignedPcStops : Prop :=
  ∀ s : State,
    (s.run = .running → isAligned s.pc = false → step s = .fault .unalignedPc) ∧
    (s.run = .halted ∨ isAligned s.pc = true → ∃ t, step s = .next t)

/-- Default sequencing (R71): whatever the instruction, the next `PC` is the pending target, in which case the slot is
emptied, or `PC + 4` modulo 2^32. The slot is full afterwards only where a transfer staged its own target. -/
def Obligations.EveryCycleSequencesThePc : Prop :=
  (∀ s : State, s.prepare.nxt.bd = none) ∧
  ∀ s t : State, s.run = .running → step s = .next t →
    (∀ a, s.cur.bd = some a → t.cur.pc = a) ∧ (s.cur.bd = none → t.cur.pc.toNat = (s.cur.pc.toNat + 4) % 2 ^ 32) ∧
    (t.cur.bd ≠ none → ∃ i, s.executes i ∧ isTransfer i = true)

/-- The ten transfers, and no others, change control flow, only by staging a target (R72): no instruction writes `next.PC`;
one that is no transfer leaves `next.BD`; JR, JALR, J and JAL always stage a target, a branch stages one or writes nothing. -/
def Obligations.OnlyTransfersStageATarget : Prop :=
  (∀ (i : Instr) (s t : State), exec i s = .next t →
    t.nxt.pc = s.nxt.pc ∧ (isTransfer i = false → t.nxt.bd = s.nxt.bd) ∧
    (isTransfer i = true → (∃ a, t.nxt.bd = some a) ∨ t = s)) ∧
  ∀ (rd rs : Reg) (target : BitVec 26) (s t : State), exec (.jr rs) s = .next t ∨ exec (.jalr rd rs) s = .next t ∨
    exec (.j target) s = .next t ∨ exec (.jal target) s = .next t → ∃ a, t.nxt.bd = some a

/-- The delay-slot law (R73, which the spec derives from R70 to R72): after a transfer at `A` that stages `T`, the core still
runs, executes the instruction at `A + 4`, and then is at `T`; after an instruction that stages nothing it is at `A + 8`. -/
def Obligations.DelaySlotLaw : Prop :=
  ∀ s u : State, s.cycleStarts → s.cur.bd = none → step s = .next u →
    (∀ a, u.cur.bd = some a → u.run = .running ∧ u.cur.pc = s.cur.pc + 4#32 ∧ ∃ t, step u = .next t ∧ t.cur.pc = a) ∧
    (u.cur.bd = none → u.run = .running → u.cur.pc = s.cur.pc + 4#32 ∧ ∃ t, step u = .next t ∧ t.cur.pc = s.cur.pc + 8#32)

/-- A transfer in a delay slot (R74; the spec's own decision D4, log 16): both transfers are honoured in turn, with one
instruction at the first target between them. -/
def Obligations.TransferInADelaySlot : Prop :=
  ∀ (s u : State) (a b : Word), s.run = .running → s.cur.bd = some a → step s = .next u → u.cur.bd = some b →
    u.cur.pc = a ∧ u.run = .running ∧ (isAligned a = true → ∃ t, step u = .next t ∧ t.cur.pc = b)

/-- `PC` is aligned after reset, and a cycle keeps it and the pending target aligned unless it executes JR or JALR with an
unaligned register value (10_state R15). -/
def Obligations.AlignmentIsLostOnlyByJumpRegister : Prop :=
  (∀ c : Config, c.wf = true → isAligned (State.resetWith c).cur.pc = true) ∧
  ∀ s t : State, s.run = .running → step s = .next t → (∀ a, s.cur.bd = some a → isAligned a = true) →
    (∀ i a, s.executes i → registerTarget s i = some a → isAligned a = true) →
    isAligned t.cur.pc = true ∧ ∀ a, t.cur.bd = some a → isAligned a = true

/-- JR or JALR with an unaligned value (93_implementation_defined U1): the jump and its delay slot are defined, and the cycle
after the delay slot, if the core still runs, is the model fault, the spec's own decision D6 (log 7). The jump may itself stand
in a delay slot, of a transfer to an aligned address: the spec's own decision D4 (log 16). -/
def Obligations.UnalignedJumpFaultsAfterTheDelaySlot : Prop :=
  ∀ (s : State) (i : Instr) (a : Word), s.executes i → registerTarget s i = some a → isAligned a = false →
    (∀ b, s.cur.bd = some b → isAligned b = true) →
    ∃ u t, step s = .next u ∧ step u = .next t ∧ t.cur.pc = a ∧ (t.run = .running → step t = .fault .unalignedPc)

/-- Determinism (R88): a cycle is a function of the current snapshot, memory and the parameters; the next snapshot, the
counter and the last diagnostic it starts with have no influence. -/
def Obligations.CycleDependsOnlyOnCurrentStateAndMemory : Prop :=
  ∀ s u t : State, s.run = .running → u.run = .running → u.cur = s.cur → u.mem = s.mem → u.config = s.config →
    step s = .next t →
    ∃ v, step u = .next v ∧ v.cur = t.cur ∧ v.mem = t.mem ∧ v.diag = t.diag ∧ v.run = t.run

/-- Every cycle commits and counts (R77): both snapshots are then the same, and `ICOUNT` is one more modulo 2^32. The
counter's width is the spec's own decision D13 (log 18). -/
def Obligations.EveryCycleCommitsAndCounts : Prop :=
  ∀ s t : State, s.run = .running → step s = .next t →
    t.nxt = t.cur ∧ t.icount.toNat = (s.icount.toNat + 1) % 2 ^ 32

/-- A cycle halts the core exactly when it executes SYSCALL with register 2 equal to 0xA (R78, 10_state R19), and that cycle
commits like any other, which is the spec's own decision D11 (log 17). -/
def Obligations.HaltsExactlyOnExitSyscall : Prop :=
  ∀ s t : State, s.run = .running → step s = .next t →
    (t.run = .halted ↔ s.executes .syscall ∧ s.x 2 = 0x0000000A#32) ∧
    (t.run = .halted → t.cur.pc = s.sequencedPc ∧ t.cur.bd = none ∧ t.icount = s.icount + 1#32 ∧
      t.cur.gpr = s.cur.gpr ∧ t.cur.hi = s.cur.hi ∧ t.cur.lo = s.cur.lo ∧ t.mem = s.mem)

/-! ### The host interface and reset (40_cycle_driver, 70_reset_and_hazards) -/

/-- With no stop presented, `run(n)` (40_cycle_driver section 4): nothing for `n = 0`, one step for `n = 1`, and runs compose, so
it is `step` up to `n` times; a run that has HALTED goes no further. That `run(1)` is `step` at a HALTED state too rests on the
spec's own decision D12 (log 17). `run_to_completion`, where it returns, returns in one state only: said of the relation
`completesIn`, which is the model's own form of it (DESIGN CHOICE, log 23). -/
def Obligations.RunStopsEarlyWhenHalted : Prop :=
  (∀ s : State, s.runFor 0 = .next s ∧ s.runFor 1 = step s) ∧
  (∀ (s t : State) (m n : Nat), s.runFor m = .next t →
    s.runFor (m + n) = t.runFor n ∧ (t.run = .halted → s.runFor (m + n) = .next t)) ∧
  ∀ s t u : State, s.completesIn t → s.completesIn u → t = u

/-- A stop request changes `RUN` to HALTED and nothing else, has no effect while HALTED, and steps then do nothing (R82;
the spec's own decisions D16, D12, log 20, log 17). -/
def Obligations.StopChangesOnlyTheRunState : Prop :=
  ∀ s : State, s.hostStop.run = .halted ∧ ({ s.hostStop with run := s.run } = s) ∧ (s.run = .halted → s.hostStop = s) ∧
    step s.hostStop = .next s.hostStop

/-- `step` while HALTED does nothing (R79); only reset leaves HALTED, and no other request at a boundary does (10_state R19,
60_exceptions R160). What a step then does is the spec's own decision D12 (log 17); that a reset makes a stop presented with it
moot is its decision D15 (40_cycle_driver R87, log 20). -/
def Obligations.HaltedIsLeftOnlyByReset : Prop :=
  ∀ s : State, s.run = .halted → step s = .next s ∧
    ∀ q : Requests, (q.reset = false → ∃ t, s.serve q = .next t ∧ t.run = .halted) ∧
      (q.reset = true → ∃ t, s.serve q = .next t ∧ t.run = .running)

/-- The reset state, from every state (10_state R25, 70_reset_and_hazards R166), with every mapped byte and word zero (20_memory
R41). The zeros of `GPR`, `HI`, `LO` and `ICOUNT` and the empty `BD` are the spec's own decisions D2, D3, D13 (log 2). -/
def Obligations.ResetValues : Prop :=
  ∀ s : State, s.hostReset.config = s.config ∧ s.hostReset.run = .running ∧ s.hostReset.cur.pc = s.config.textBegin ∧
    (∀ i : Reg, s.hostReset.cur.reg i = 0#32) ∧ s.hostReset.cur.hi = 0#32 ∧ s.hostReset.cur.lo = 0#32 ∧
    s.hostReset.cur.bd = none ∧ s.hostReset.nxt = s.hostReset.cur ∧ s.hostReset.icount = 0#32 ∧ s.hostReset.diag = .none ∧
    (∀ b, s.hostReset.mem.byte b = 0#8) ∧
    ∀ a, wordStatus s.config a = .ok → s.hostReset.hostReadWord a = .ok 0x00000000#32

/-- An injection writes one register, `HI` or `LO`, in both snapshots, and nothing else (R84). What may be injected,
and when, is the spec's own decision D17 (log 24). -/
def Obligations.InjectionWritesOneElement : Prop :=
  ∀ (s : State) (v : Word),
    (∀ i : Reg, ∃ t, s.hostInject ⟨.gpr i, v⟩ = t ∧ t.cur.reg i = v ∧ t.nxt.reg i = v ∧
      (∀ j, j ≠ i → t.cur.reg j = s.cur.reg j ∧ t.nxt.reg j = s.nxt.reg j) ∧
      t = { s with cur := { s.cur with gpr := t.cur.gpr }, nxt := { s.nxt with gpr := t.nxt.gpr } }) ∧
    s.hostInject ⟨.hi, v⟩ = { s with cur := { s.cur with hi := v }, nxt := { s.nxt with hi := v } } ∧
    s.hostInject ⟨.lo, v⟩ = { s with cur := { s.cur with lo := v }, nxt := { s.nxt with lo := v } }

/-- The loader puts word `k` at `MEM_TEXT_BEGIN + 4*k` (R86, 70_reset_and_hazards R167), for words whose addresses are mapped, and
changes no byte outside them. -/
def Obligations.LoaderPlacesTheWords : Prop :=
  ∀ (s : State) (ws : List Word) (address : Nat → Word), s.Inv → ws.length < 2 ^ 30 →
    (∀ k, address k = s.config.textBegin + BitVec.ofNat 32 (4 * k)) →
    (∀ k, k < ws.length → wordStatus s.config (address k) = .ok) →
    (∀ k (h : k < ws.length), (s.hostLoad ws).hostReadWord (address k) = .ok ws[k]) ∧
    ∀ b, (∀ k, k < ws.length → b < (address k).toNat ∨ (address k).toNat + 4 ≤ b) →
      (s.hostLoad ws).mem.byte b = s.mem.byte b

/-- Requests presented at one boundary (R87): reset makes the others moot. Without a reset the stop, every injection and every
write take effect, and nothing else, in a state `u`, whose `PC`, `BD` and `ICOUNT` are as before; the step comes after them, from
`u`, and after a stop it does nothing, by D12 (log 17). The order of the classes is the decision D15 (log 20); the order within a
list is the model's choice (log 30). -/
def Obligations.BoundaryOrderOfRequests : Prop :=
  ∀ (s : State) (q : Requests),
    (q.reset = true → s.serve q = .next s.hostReset) ∧
    (q.reset = false → ∀ u : State,
      u = { s with run := if q.stop then .halted else s.run,
                   cur := q.injections.foldl Snapshot.inject s.cur, nxt := q.injections.foldl Snapshot.inject s.nxt,
                   mem := q.writes.foldl (fun m w => (writeWord s.config m w.1 w.2).2) s.mem } →
      u.icount = s.icount ∧ u.cur.pc = s.cur.pc ∧ u.cur.bd = s.cur.bd ∧
      s.serve q = (if q.step then step u else .next u) ∧ (q.stop = true → s.serve q = .next u))

/-- A word placed where the next fetch reads is what the next step executes (log 21). -/
def Obligations.PlacedWordIsExecutedNext : Prop :=
  ∀ (s : State) (w : Word), s.Inv → (s.withFetchWord 32 w.toNat).fetches w ∧
    (∀ i, decode w = .instr i → (s.withFetchWord 32 w.toNat).executes i)

/-! ### The invariant -/

/-- Every step keeps the invariant of the machine between cycles, and never changes the memory map (10_state R17, R18, R22). -/
def Obligations.StepKeepsTheInvariant : Prop :=
  ∀ s t : State, s.Inv → step s = .next t → t.Inv ∧ t.config = s.config

/-- The invariant holds after reset, for every memory map that meets the constraints, and for the test configuration. -/
def Obligations.InvariantAtReset : Prop :=
  (∀ c : Config, c.wf = true → (State.resetWith c).Inv) ∧ State.reset.Inv

/-- Every host operation keeps the invariant (R82 to R87). -/
def Obligations.HostOperationsKeepTheInvariant : Prop :=
  ∀ s : State, s.Inv → s.hostReset.Inv ∧ s.hostStop.Inv ∧ (∀ j, (s.hostInject j).Inv) ∧
    (∀ a v, (s.hostWriteWord a v).2.Inv) ∧ (∀ ws, (s.hostLoad ws).Inv) ∧
    ∀ q t, s.serve q = .next t → t.Inv
end

