-- ==== Sys2Proof/Laws/State.lean ====
section
/-! SUPPORT. The small lemmas of the state's updates: one per field per update, so that no proof unfolds a record update. -/

namespace Sys2Proof.Machine

/-! ### Snapshots -/

@[simp] theorem Snapshot.setReg_hi (p : Snapshot) (i : Reg) (v : Word) : (p.setReg i v).hi = p.hi := rfl
@[simp] theorem Snapshot.setReg_lo (p : Snapshot) (i : Reg) (v : Word) : (p.setReg i v).lo = p.lo := rfl
@[simp] theorem Snapshot.setReg_pc (p : Snapshot) (i : Reg) (v : Word) : (p.setReg i v).pc = p.pc := rfl
@[simp] theorem Snapshot.setReg_bd (p : Snapshot) (i : Reg) (v : Word) : (p.setReg i v).bd = p.bd := rfl

@[simp] theorem Snapshot.reg_setReg_same (p : Snapshot) (i : Reg) (v : Word) : (p.setReg i v).reg i = v := by
  simp [Snapshot.reg, Snapshot.setReg]

@[simp] theorem Snapshot.reg_setReg_ne (p : Snapshot) {i j : Reg} (v : Word) (h : j ≠ i) :
    (p.setReg i v).reg j = p.reg j := by
  have h' : i.val ≠ j.val := fun e => h (Fin.ext e.symm)
  simp [Snapshot.reg, Snapshot.setReg, Vector.getElem_set_ne, h']

/-- Writing a register with its own value changes nothing. -/
@[simp] theorem Snapshot.setReg_reg (p : Snapshot) (i : Reg) : p.setReg i (p.reg i) = p := by
  simp [Snapshot.reg, Snapshot.setReg]

/-- A field other than `gpr` does not matter to a register read. -/
theorem Snapshot.reg_eq_of_gpr {p q : Snapshot} (h : p.gpr = q.gpr) (i : Reg) : p.reg i = q.reg i := by
  simp [Snapshot.reg, h]

@[simp] theorem Snapshot.reg_with_hi (p : Snapshot) (v : Word) (i : Reg) : ({ p with hi := v } : Snapshot).reg i = p.reg i := rfl
@[simp] theorem Snapshot.reg_with_lo (p : Snapshot) (v : Word) (i : Reg) : ({ p with lo := v } : Snapshot).reg i = p.reg i := rfl
@[simp] theorem Snapshot.reg_with_bd (p : Snapshot) (v : Option Word) (i : Reg) :
    ({ p with bd := v } : Snapshot).reg i = p.reg i := rfl
@[simp] theorem Snapshot.reg_with_pc_bd (p : Snapshot) (a : Word) (v : Option Word) (i : Reg) :
    ({ p with pc := a, bd := v } : Snapshot).reg i = p.reg i := rfl

@[simp] theorem Snapshot.reset_reg (c : Config) (i : Reg) : (Snapshot.reset c).reg i = 0#32 := by
  simp [Snapshot.reset, Snapshot.reg]

/-! ### `State.setX` -/

@[simp] theorem State.setX_config (s : State) (i : Reg) (v : Word) : (s.setX i v).config = s.config := rfl
@[simp] theorem State.setX_cur (s : State) (i : Reg) (v : Word) : (s.setX i v).cur = s.cur := rfl
@[simp] theorem State.setX_nxt (s : State) (i : Reg) (v : Word) : (s.setX i v).nxt = s.nxt.setReg i v := rfl
@[simp] theorem State.setX_mem (s : State) (i : Reg) (v : Word) : (s.setX i v).mem = s.mem := rfl
@[simp] theorem State.setX_run (s : State) (i : Reg) (v : Word) : (s.setX i v).run = s.run := rfl
@[simp] theorem State.setX_icount (s : State) (i : Reg) (v : Word) : (s.setX i v).icount = s.icount := rfl
@[simp] theorem State.setX_diag (s : State) (i : Reg) (v : Word) : (s.setX i v).diag = s.diag := rfl
@[simp] theorem State.setX_exit (s : State) (i : Reg) (v : Word) : (s.setX i v).exit = s.exit := rfl

/-! ### `State.setHi` -/

@[simp] theorem State.setHi_config (s : State) (v : Word) : (s.setHi v).config = s.config := rfl
@[simp] theorem State.setHi_cur (s : State) (v : Word) : (s.setHi v).cur = s.cur := rfl
@[simp] theorem State.setHi_nxt (s : State) (v : Word) : (s.setHi v).nxt = { s.nxt with hi := v } := rfl
@[simp] theorem State.setHi_mem (s : State) (v : Word) : (s.setHi v).mem = s.mem := rfl
@[simp] theorem State.setHi_run (s : State) (v : Word) : (s.setHi v).run = s.run := rfl
@[simp] theorem State.setHi_icount (s : State) (v : Word) : (s.setHi v).icount = s.icount := rfl
@[simp] theorem State.setHi_diag (s : State) (v : Word) : (s.setHi v).diag = s.diag := rfl
@[simp] theorem State.setHi_exit (s : State) (v : Word) : (s.setHi v).exit = s.exit := rfl

/-! ### `State.setLo` -/

@[simp] theorem State.setLo_config (s : State) (v : Word) : (s.setLo v).config = s.config := rfl
@[simp] theorem State.setLo_cur (s : State) (v : Word) : (s.setLo v).cur = s.cur := rfl
@[simp] theorem State.setLo_nxt (s : State) (v : Word) : (s.setLo v).nxt = { s.nxt with lo := v } := rfl
@[simp] theorem State.setLo_mem (s : State) (v : Word) : (s.setLo v).mem = s.mem := rfl
@[simp] theorem State.setLo_run (s : State) (v : Word) : (s.setLo v).run = s.run := rfl
@[simp] theorem State.setLo_icount (s : State) (v : Word) : (s.setLo v).icount = s.icount := rfl
@[simp] theorem State.setLo_diag (s : State) (v : Word) : (s.setLo v).diag = s.diag := rfl
@[simp] theorem State.setLo_exit (s : State) (v : Word) : (s.setLo v).exit = s.exit := rfl

/-! ### `State.stage` -/

@[simp] theorem State.stage_config (s : State) (a : Word) : (s.stage a).config = s.config := rfl
@[simp] theorem State.stage_cur (s : State) (a : Word) : (s.stage a).cur = s.cur := rfl
@[simp] theorem State.stage_nxt (s : State) (a : Word) : (s.stage a).nxt = { s.nxt with bd := some a } := rfl
@[simp] theorem State.stage_mem (s : State) (a : Word) : (s.stage a).mem = s.mem := rfl
@[simp] theorem State.stage_run (s : State) (a : Word) : (s.stage a).run = s.run := rfl
@[simp] theorem State.stage_icount (s : State) (a : Word) : (s.stage a).icount = s.icount := rfl
@[simp] theorem State.stage_diag (s : State) (a : Word) : (s.stage a).diag = s.diag := rfl
@[simp] theorem State.stage_exit (s : State) (a : Word) : (s.stage a).exit = s.exit := rfl

/-! ### `State.report` -/

@[simp] theorem State.report_config (s : State) (d : Diag) : (s.report d).config = s.config := rfl
@[simp] theorem State.report_cur (s : State) (d : Diag) : (s.report d).cur = s.cur := rfl
@[simp] theorem State.report_nxt (s : State) (d : Diag) : (s.report d).nxt = s.nxt := rfl
@[simp] theorem State.report_mem (s : State) (d : Diag) : (s.report d).mem = s.mem := rfl
@[simp] theorem State.report_run (s : State) (d : Diag) : (s.report d).run = s.run := rfl
@[simp] theorem State.report_icount (s : State) (d : Diag) : (s.report d).icount = s.icount := rfl
@[simp] theorem State.report_diag (s : State) (d : Diag) : (s.report d).diag = d := rfl
@[simp] theorem State.report_exit (s : State) (d : Diag) : (s.report d).exit = s.exit := rfl

/-! ### `State.signalExit` -/

@[simp] theorem State.signalExit_config (s : State) : s.signalExit.config = s.config := rfl
@[simp] theorem State.signalExit_cur (s : State) : s.signalExit.cur = s.cur := rfl
@[simp] theorem State.signalExit_nxt (s : State) : s.signalExit.nxt = s.nxt := rfl
@[simp] theorem State.signalExit_mem (s : State) : s.signalExit.mem = s.mem := rfl
@[simp] theorem State.signalExit_run (s : State) : s.signalExit.run = s.run := rfl
@[simp] theorem State.signalExit_icount (s : State) : s.signalExit.icount = s.icount := rfl
@[simp] theorem State.signalExit_diag (s : State) : s.signalExit.diag = s.diag := rfl
@[simp] theorem State.signalExit_exit (s : State) : s.signalExit.exit = true := rfl

/-! ### `State.setMem` -/

@[simp] theorem State.setMem_config (s : State) (m : Memory) : (s.setMem m).config = s.config := rfl
@[simp] theorem State.setMem_cur (s : State) (m : Memory) : (s.setMem m).cur = s.cur := rfl
@[simp] theorem State.setMem_nxt (s : State) (m : Memory) : (s.setMem m).nxt = s.nxt := rfl
@[simp] theorem State.setMem_mem (s : State) (m : Memory) : (s.setMem m).mem = m := rfl
@[simp] theorem State.setMem_run (s : State) (m : Memory) : (s.setMem m).run = s.run := rfl
@[simp] theorem State.setMem_icount (s : State) (m : Memory) : (s.setMem m).icount = s.icount := rfl
@[simp] theorem State.setMem_diag (s : State) (m : Memory) : (s.setMem m).diag = s.diag := rfl
@[simp] theorem State.setMem_exit (s : State) (m : Memory) : (s.setMem m).exit = s.exit := rfl

/-! ### `State.seed` -/

@[simp] theorem State.seed_config (s : State) : s.seed.config = s.config := rfl
@[simp] theorem State.seed_cur (s : State) : s.seed.cur = s.cur := rfl
@[simp] theorem State.seed_nxt (s : State) : s.seed.nxt = s.cur := rfl
@[simp] theorem State.seed_mem (s : State) : s.seed.mem = s.mem := rfl
@[simp] theorem State.seed_run (s : State) : s.seed.run = s.run := rfl
@[simp] theorem State.seed_icount (s : State) : s.seed.icount = s.icount := rfl
@[simp] theorem State.seed_diag (s : State) : s.seed.diag = .none := rfl
@[simp] theorem State.seed_exit (s : State) : s.seed.exit = false := rfl

/-! ### `State.sequencePc` -/

@[simp] theorem State.sequencePc_config (s : State) : s.sequencePc.config = s.config := rfl
@[simp] theorem State.sequencePc_cur (s : State) : s.sequencePc.cur = s.cur := rfl
@[simp] theorem State.sequencePc_nxt (s : State) : s.sequencePc.nxt = { s.nxt with pc := s.sequencedPc, bd := s.sequencedBd } := rfl
@[simp] theorem State.sequencePc_mem (s : State) : s.sequencePc.mem = s.mem := rfl
@[simp] theorem State.sequencePc_run (s : State) : s.sequencePc.run = s.run := rfl
@[simp] theorem State.sequencePc_icount (s : State) : s.sequencePc.icount = s.icount := rfl
@[simp] theorem State.sequencePc_diag (s : State) : s.sequencePc.diag = s.diag := rfl
@[simp] theorem State.sequencePc_exit (s : State) : s.sequencePc.exit = s.exit := rfl

/-! ### `State.commit` -/

@[simp] theorem State.commit_config (s : State) : s.commit.config = s.config := rfl
@[simp] theorem State.commit_cur (s : State) : s.commit.cur = s.nxt := rfl
@[simp] theorem State.commit_nxt (s : State) : s.commit.nxt = s.nxt := rfl
@[simp] theorem State.commit_mem (s : State) : s.commit.mem = s.mem := rfl
@[simp] theorem State.commit_run (s : State) : s.commit.run = s.run := rfl
@[simp] theorem State.commit_icount (s : State) : s.commit.icount = s.icount + 1#32 := rfl
@[simp] theorem State.commit_diag (s : State) : s.commit.diag = s.diag := rfl
@[simp] theorem State.commit_exit (s : State) : s.commit.exit = s.exit := rfl

/-! ### `State.hostStop` -/

@[simp] theorem State.hostStop_config (s : State) : s.hostStop.config = s.config := rfl
@[simp] theorem State.hostStop_cur (s : State) : s.hostStop.cur = s.cur := rfl
@[simp] theorem State.hostStop_nxt (s : State) : s.hostStop.nxt = s.nxt := rfl
@[simp] theorem State.hostStop_mem (s : State) : s.hostStop.mem = s.mem := rfl
@[simp] theorem State.hostStop_run (s : State) : s.hostStop.run = .halted := rfl
@[simp] theorem State.hostStop_icount (s : State) : s.hostStop.icount = s.icount := rfl
@[simp] theorem State.hostStop_diag (s : State) : s.hostStop.diag = s.diag := rfl
@[simp] theorem State.hostStop_exit (s : State) : s.hostStop.exit = s.exit := rfl

/-! ### `State.hostInject` -/

@[simp] theorem State.hostInject_config (s : State) (j : Injection) : (s.hostInject j).config = s.config := rfl
@[simp] theorem State.hostInject_cur (s : State) (j : Injection) : (s.hostInject j).cur = s.cur.inject j := rfl
@[simp] theorem State.hostInject_nxt (s : State) (j : Injection) : (s.hostInject j).nxt = s.nxt.inject j := rfl
@[simp] theorem State.hostInject_mem (s : State) (j : Injection) : (s.hostInject j).mem = s.mem := rfl
@[simp] theorem State.hostInject_run (s : State) (j : Injection) : (s.hostInject j).run = s.run := rfl
@[simp] theorem State.hostInject_icount (s : State) (j : Injection) : (s.hostInject j).icount = s.icount := rfl
@[simp] theorem State.hostInject_diag (s : State) (j : Injection) : (s.hostInject j).diag = s.diag := rfl
@[simp] theorem State.hostInject_exit (s : State) (j : Injection) : (s.hostInject j).exit = s.exit := rfl

/-! ### `State.hostReset` -/

@[simp] theorem State.hostReset_config (s : State) : s.hostReset.config = s.config := rfl
@[simp] theorem State.hostReset_cur (s : State) : s.hostReset.cur = Snapshot.reset s.config := rfl
@[simp] theorem State.hostReset_nxt (s : State) : s.hostReset.nxt = Snapshot.reset s.config := rfl
@[simp] theorem State.hostReset_mem (s : State) : s.hostReset.mem = ⟨[]⟩ := rfl
@[simp] theorem State.hostReset_run (s : State) : s.hostReset.run = .running := rfl
@[simp] theorem State.hostReset_icount (s : State) : s.hostReset.icount = 0#32 := rfl
@[simp] theorem State.hostReset_diag (s : State) : s.hostReset.diag = .none := rfl
@[simp] theorem State.hostReset_exit (s : State) : s.hostReset.exit = false := rfl

/-! ### `State.placeWord` -/

@[simp] theorem State.placeWord_config (s : State) (w : Word) : (s.placeWord w).config = s.config := rfl
@[simp] theorem State.placeWord_cur (s : State) (w : Word) : (s.placeWord w).cur = { s.cur with pc := s.placementPc } := rfl
@[simp] theorem State.placeWord_nxt (s : State) (w : Word) : (s.placeWord w).nxt = { s.nxt with pc := s.placementPc } := rfl
@[simp] theorem State.placeWord_mem (s : State) (w : Word) : (s.placeWord w).mem = s.mem.setWord s.placementPc.toNat w := rfl
@[simp] theorem State.placeWord_run (s : State) (w : Word) : (s.placeWord w).run = .running := rfl
@[simp] theorem State.placeWord_icount (s : State) (w : Word) : (s.placeWord w).icount = s.icount := rfl
@[simp] theorem State.placeWord_diag (s : State) (w : Word) : (s.placeWord w).diag = s.diag := rfl
@[simp] theorem State.placeWord_exit (s : State) (w : Word) : (s.placeWord w).exit = s.exit := rfl

/-! ### `State.prepare`: seeding and sequencing -/

@[simp] theorem State.sequencedPc_seed (s : State) : s.seed.sequencedPc = s.sequencedPc := rfl

/-- After seeding, the sequencer leaves the pending-branch slot empty, whatever it held (40_cycle_driver R71). -/
@[simp] theorem State.sequencedBd_seed (s : State) : s.seed.sequencedBd = none := by
  cases h : s.cur.bd <;> simp [State.sequencedBd, h]

@[simp] theorem State.prepare_config (s : State) : s.prepare.config = s.config := rfl
@[simp] theorem State.prepare_cur (s : State) : s.prepare.cur = s.cur := rfl
@[simp] theorem State.prepare_mem (s : State) : s.prepare.mem = s.mem := rfl
@[simp] theorem State.prepare_run (s : State) : s.prepare.run = s.run := rfl
@[simp] theorem State.prepare_icount (s : State) : s.prepare.icount = s.icount := rfl
@[simp] theorem State.prepare_diag (s : State) : s.prepare.diag = .none := rfl
@[simp] theorem State.prepare_exit (s : State) : s.prepare.exit = false := rfl
@[simp] theorem State.prepare_nxt (s : State) : s.prepare.nxt = { s.cur with pc := s.sequencedPc, bd := none } := by
  simp [State.prepare]

@[simp] theorem State.x_prepare (s : State) (i : Reg) : s.prepare.x i = s.x i := rfl
@[simp] theorem State.pc_prepare (s : State) : s.prepare.pc = s.pc := rfl
@[simp] theorem State.fetchedWord_prepare (s : State) : s.prepare.fetchedWord = s.fetchedWord := rfl

/-! ### `State.finish`: commit, count and halt -/

@[simp] theorem State.finish_config (s : State) : s.finish.config = s.config := by
  unfold State.finish State.haltOnExit; split <;> rfl
@[simp] theorem State.finish_cur (s : State) : s.finish.cur = s.nxt := by
  unfold State.finish State.haltOnExit; split <;> rfl
@[simp] theorem State.finish_nxt (s : State) : s.finish.nxt = s.nxt := by
  unfold State.finish State.haltOnExit; split <;> rfl
@[simp] theorem State.finish_mem (s : State) : s.finish.mem = s.mem := by
  unfold State.finish State.haltOnExit; split <;> rfl
@[simp] theorem State.finish_icount (s : State) : s.finish.icount = s.icount + 1#32 := by
  unfold State.finish State.haltOnExit; split <;> rfl
@[simp] theorem State.finish_diag (s : State) : s.finish.diag = s.diag := by
  unfold State.finish State.haltOnExit; split <;> rfl
@[simp] theorem State.finish_run (s : State) : s.finish.run = if s.exit then .halted else s.run := by
  unfold State.finish State.haltOnExit; split <;> simp_all
@[simp] theorem State.finish_exit (s : State) : s.finish.exit = false := by
  unfold State.finish State.haltOnExit; split <;> simp_all

/-! ### Reads of the current snapshot see no write of the same cycle (10_state R17) -/

@[simp] theorem State.x_setX (s : State) (i j : Reg) (v : Word) : (s.setX i v).x j = s.x j := rfl
@[simp] theorem State.x_stage (s : State) (a : Word) (j : Reg) : (s.stage a).x j = s.x j := rfl
@[simp] theorem State.pc_setX (s : State) (i : Reg) (v : Word) : (s.setX i v).pc = s.pc := rfl
@[simp] theorem State.pc_stage (s : State) (a : Word) : (s.stage a).pc = s.pc := rfl

end Sys2Proof.Machine
end

