-- ==== Sys2Proof/Laws/Memory.lean ====
section
/-! SUPPORT. What the memory operations can do: read after write, bytes left alone, the canonical form kept, and one lemma for
each of the word primitives (20_memory R33 to R37). -/

namespace Sys2Proof.Machine

/-! ### Words and their bytes (20_memory R35) -/

@[simp] theorem byteOfWord_wordOfBytes_0 (b0 b1 b2 b3 : Byte) : byteOfWord (wordOfBytes b0 b1 b2 b3) 0 = b0 := by
  unfold byteOfWord wordOfBytes; ext i h; interval_cases i <;> simp

@[simp] theorem byteOfWord_wordOfBytes_1 (b0 b1 b2 b3 : Byte) : byteOfWord (wordOfBytes b0 b1 b2 b3) 1 = b1 := by
  unfold byteOfWord wordOfBytes; ext i h; interval_cases i <;> simp

@[simp] theorem byteOfWord_wordOfBytes_2 (b0 b1 b2 b3 : Byte) : byteOfWord (wordOfBytes b0 b1 b2 b3) 2 = b2 := by
  unfold byteOfWord wordOfBytes; ext i h; interval_cases i <;> simp

@[simp] theorem byteOfWord_wordOfBytes_3 (b0 b1 b2 b3 : Byte) : byteOfWord (wordOfBytes b0 b1 b2 b3) 3 = b3 := by
  unfold byteOfWord wordOfBytes; ext i h; interval_cases i <;> simp

/-- The bytes of a word, put together, are the word. -/
@[simp] theorem wordOfBytes_byteOfWord (w : Word) :
    wordOfBytes (byteOfWord w 0) (byteOfWord w 1) (byteOfWord w 2) (byteOfWord w 3) = w := by
  unfold byteOfWord wordOfBytes; ext i h; interval_cases i <;> simp

/-- The value of a word by its bytes. -/
theorem toNat_wordOfBytes (b0 b1 b2 b3 : Byte) : (wordOfBytes b0 b1 b2 b3).toNat =
    b0.toNat + 2 ^ 8 * b1.toNat + 2 ^ 16 * b2.toNat + 2 ^ 24 * b3.toNat := by
  have h : wordOfBytes b0 b1 b2 b3 = (b3 ++ (b2 ++ (b1 ++ b0)) : BitVec (8 + (8 + (8 + 8)))) := by
    unfold wordOfBytes
    apply BitVec.eq_of_getLsbD_eq
    intro i h
    simp only [BitVec.getLsbD_append]
    interval_cases i <;> simp
  rw [h, BitVec.toNat_append, BitVec.toNat_append, BitVec.toNat_append]
  have h0 := b0.isLt
  have h1 : b1.toNat <<< 8 + b0.toNat < 2 ^ (8 + 8) := by have := b1.isLt; simp only [Nat.shiftLeft_eq]; omega
  have h2 : b2.toNat <<< (8 + 8) + (b1.toNat <<< 8 + b0.toNat) < 2 ^ (8 + (8 + 8)) := by
    have := b2.isLt; simp only [Nat.shiftLeft_eq]; omega
  rw [← Nat.shiftLeft_add_eq_or_of_lt h0, ← Nat.shiftLeft_add_eq_or_of_lt h1, ← Nat.shiftLeft_add_eq_or_of_lt h2]
  simp only [Nat.shiftLeft_eq]
  omega

/-! ### One byte -/

@[simp] theorem Memory.byte_empty (a : Nat) : (Memory.mk []).byte a = 0#8 := rfl

/-- A byte write leaves every other address alone. -/
theorem byteInCells_set_ne (l : List Host.Cell) {a b : Nat} (v : Byte) (h : b ≠ a) :
    byteInCells (setByteInCells l a v) b = byteInCells l b := by
  induction l with
  | nil => unfold setByteInCells; split <;> simp [byteInCells, h]
  | cons x rest ih =>
    obtain ⟨c, w⟩ := x
    unfold setByteInCells
    split
    · split <;> simp [byteInCells, h]
    · split
      · rename_i heq
        subst heq
        split <;> simp [byteInCells, h]
      · simp [byteInCells, ih]

/-- An address below every listed one holds 0. -/
theorem byteInCells_below {l : List Host.Cell} {a : Nat} (h : ∀ x ∈ l, a < x.1) : byteInCells l a = 0#8 := by
  induction l with
  | nil => rfl
  | cons x rest ih =>
    obtain ⟨c, w⟩ := x
    have hc : a < c := h (c, w) (by simp)
    simp [byteInCells, Nat.ne_of_lt hc, ih fun y hy => h y (by simp [hy])]

/-- A byte written is read back. -/
theorem byteInCells_set_same {l : List Host.Cell} (a : Nat) (v : Byte) (h : l.Pairwise fun x y => x.1 < y.1) :
    byteInCells (setByteInCells l a v) a = v := by
  induction l with
  | nil => unfold setByteInCells; split <;> simp_all [byteInCells]
  | cons x rest ih =>
    obtain ⟨c, w⟩ := x
    obtain ⟨hall, hrest⟩ := List.pairwise_cons.mp h
    unfold setByteInCells
    split
    · rename_i hlt
      split
      · rename_i hv
        have h0 := byteInCells_below (l := rest) (a := a) fun y hy => Nat.lt_trans hlt (hall y hy)
        simp [byteInCells, Nat.ne_of_lt hlt, h0, hv]
      · simp [byteInCells]
    · split
      · rename_i heq
        split
        · rename_i hv
          rw [byteInCells_below fun y hy => heq ▸ hall y hy, hv]
        · simp [byteInCells]
      · rename_i hne
        simp [byteInCells, hne, ih hrest]

/-- Every cell after a byte write is an old one or the written one. -/
theorem mem_setByteInCells {l : List Host.Cell} {a : Nat} {v : Byte} {x : Host.Cell} (h : x ∈ setByteInCells l a v) :
    x ∈ l ∨ (x = (a, v) ∧ v ≠ 0#8) := by
  induction l with
  | nil => unfold setByteInCells at h; split at h <;> simp_all
  | cons y rest ih =>
    obtain ⟨c, w⟩ := y
    unfold setByteInCells at h
    split at h
    · split at h <;> simp_all
      tauto
    · split at h
      · split at h <;> simp_all
        tauto
      · rcases List.mem_cons.mp h with h | h
        · simp [h]
        · rcases ih h with h | h
          · simp [h]
          · exact Or.inr h

/-- A byte write keeps the addresses strictly rising. -/
theorem pairwise_setByteInCells {l : List Host.Cell} (a : Nat) (v : Byte) (h : l.Pairwise fun x y => x.1 < y.1) :
    (setByteInCells l a v).Pairwise fun x y => x.1 < y.1 := by
  induction l with
  | nil => unfold setByteInCells; split <;> simp
  | cons x rest ih =>
    obtain ⟨c, w⟩ := x
    obtain ⟨hall, hrest⟩ := List.pairwise_cons.mp h
    unfold setByteInCells
    split
    · rename_i hlt
      split
      · exact h
      · refine List.pairwise_cons.mpr ⟨?_, h⟩
        intro y hy
        rcases List.mem_cons.mp hy with rfl | hy
        · exact hlt
        · exact Nat.lt_trans hlt (hall y hy)
    · split
      · rename_i heq
        split
        · exact hrest
        · exact List.pairwise_cons.mpr ⟨fun y hy => heq ▸ hall y hy, hrest⟩
      · rename_i h1 h2
        refine List.pairwise_cons.mpr ⟨?_, ih hrest⟩
        intro y hy
        rcases mem_setByteInCells hy with hy | ⟨rfl, -⟩
        · exact hall y hy
        · exact Nat.lt_of_le_of_ne (Nat.not_lt.mp h1) (Ne.symm h2)

@[simp] theorem Memory.byte_setByte_ne (m : Memory) {a b : Nat} (v : Byte) (h : b ≠ a) :
    (m.setByte a v).byte b = m.byte b := byteInCells_set_ne m.cells v h

theorem Memory.byte_setByte_same {m : Memory} (hm : m.wf) (a : Nat) (v : Byte) : (m.setByte a v).byte a = v :=
  byteInCells_set_same a v hm.1

/-- A byte write keeps the canonical form. -/
theorem Memory.wf_setByte {m : Memory} (hm : m.wf) (a : Nat) (v : Byte) : (m.setByte a v).wf := by
  refine ⟨pairwise_setByteInCells a v hm.1, fun x hx => ?_⟩
  rcases mem_setByteInCells hx with hx | ⟨rfl, hv⟩
  · exact hm.2 x hx
  · exact hv

/-- A byte write inside a region keeps memory inside the regions. -/
theorem Memory.within_setByte {m : Memory} {c : Config} (hm : m.withinRegions c) {r : Region} (hr : r ∈ c.regions) {a : Nat}
    (ha : ownsAddress r a = true) (v : Byte) : (m.setByte a v).withinRegions c := by
  intro x hx
  rcases mem_setByteInCells hx with hx | ⟨rfl, -⟩
  · exact hm x hx
  · exact ⟨r, hr, ha⟩

/-! ### One word -/

/-- A word write leaves every byte outside the four alone. -/
theorem Memory.byte_setWord_outside (m : Memory) {a b : Nat} (v : Word) (h : b < a ∨ a + 4 ≤ b) :
    (m.setWord a v).byte b = m.byte b := by
  unfold Memory.setWord
  rw [Memory.byte_setByte_ne _ _ (by omega), Memory.byte_setByte_ne _ _ (by omega), Memory.byte_setByte_ne _ _ (by omega),
    Memory.byte_setByte_ne _ _ (by omega)]

/-- A word write makes its four bytes those of the word. -/
theorem Memory.byte_setWord_inside {m : Memory} (hm : m.wf) (a : Nat) (v : Word) {k : Nat} (hk : k < 4) :
    (m.setWord a v).byte (a + k) = byteOfWord v k := by
  have h0 := Memory.wf_setByte hm a (byteOfWord v 0)
  have h1 := Memory.wf_setByte h0 (a + 1) (byteOfWord v 1)
  have h2 := Memory.wf_setByte h1 (a + 2) (byteOfWord v 2)
  unfold Memory.setWord
  interval_cases k
  · rw [Memory.byte_setByte_ne _ _ (by omega), Memory.byte_setByte_ne _ _ (by omega), Memory.byte_setByte_ne _ _ (by omega)]
    exact Memory.byte_setByte_same hm a _
  · rw [Memory.byte_setByte_ne _ _ (by omega), Memory.byte_setByte_ne _ _ (by omega), Memory.byte_setByte_same h0]
  · rw [Memory.byte_setByte_ne _ _ (by omega), Memory.byte_setByte_same h1]
  · rw [Memory.byte_setByte_same h2]

/-- A word write keeps the canonical form. -/
theorem Memory.wf_setWord {m : Memory} (hm : m.wf) (a : Nat) (v : Word) : (m.setWord a v).wf :=
  Memory.wf_setByte (Memory.wf_setByte (Memory.wf_setByte (Memory.wf_setByte hm _ _) _ _) _ _) _ _

/-- A word written is read back. -/
theorem Memory.word_setWord {m : Memory} (hm : m.wf) (a : Nat) (v : Word) : (m.setWord a v).word a = v := by
  have h0 := Memory.byte_setWord_inside hm a v (k := 0) (by omega)
  have h1 := Memory.byte_setWord_inside hm a v (k := 1) (by omega)
  have h2 := Memory.byte_setWord_inside hm a v (k := 2) (by omega)
  have h3 := Memory.byte_setWord_inside hm a v (k := 3) (by omega)
  rw [Nat.add_zero] at h0
  simp [Memory.word, h0, h1, h2, h3]

/-! ### Statuses -/

/-- What a mapped status says: the four bytes lie in one region of the list (20_memory R33). -/
theorem wordStatus_ok {c : Config} {a : Word} (h : wordStatus c a = .ok) :
    ∃ r ∈ c.regions, r.base ≤ a.toNat ∧ a.toNat + 3 < r.base + r.size := by
  unfold wordStatus at h
  split at h
  · cases h
  · rename_i r hr
    have hp := List.find?_some hr
    have hmem := List.mem_of_find?_eq_some hr
    simp only [ownsAddress, Bool.and_eq_true, decide_eq_true_eq] at hp
    split at h
    · cases h
    · exact ⟨r, hmem, hp.1, by omega⟩

/-- What a SPAN status says: the first byte lies in a region, the four bytes do not (20_memory R33). -/
theorem wordStatus_span {c : Config} {a : Word} (h : wordStatus c a = .span) :
    ∃ r ∈ c.regions, r.base ≤ a.toNat ∧ a.toNat < r.base + r.size ∧ r.base + r.size ≤ a.toNat + 3 := by
  unfold wordStatus at h
  split at h
  · cases h
  · rename_i r hr
    have hp := List.find?_some hr
    have hmem := List.mem_of_find?_eq_some hr
    simp only [ownsAddress, Bool.and_eq_true, decide_eq_true_eq] at hp
    split at h
    · exact ⟨r, hmem, hp.1, hp.2, by omega⟩
    · cases h

/-- A word write with a mapped status keeps memory inside the regions. -/
theorem Memory.within_setWord {m : Memory} {c : Config} {a : Word} (hm : m.withinRegions c) (h : wordStatus c a = .ok)
    (v : Word) : (m.setWord a.toNat v).withinRegions c := by
  obtain ⟨r, hr, h1, h2⟩ := wordStatus_ok h
  have own : ∀ k, k < 4 → ownsAddress r (a.toNat + k) = true := by
    intro k hk
    simp only [ownsAddress, Bool.and_eq_true, decide_eq_true_eq]
    omega
  exact Memory.within_setByte (Memory.within_setByte (Memory.within_setByte (Memory.within_setByte hm hr (own 0 (by omega)) _)
    hr (own 1 (by omega)) _) hr (own 2 (by omega)) _) hr (own 3 (by omega)) _

/-! ### The primitives, by status -/

theorem readWord_ok {c : Config} {a : Word} (m : Memory) (h : wordStatus c a = .ok) : readWord c m a = .ok (m.word a.toNat) := by
  simp [readWord, h]
theorem readWord_unmapped {c : Config} {a : Word} (m : Memory) (h : wordStatus c a = .unmapped) :
    readWord c m a = .unmapped 0#32 := by simp [readWord, h]
theorem readWord_span {c : Config} {a : Word} (m : Memory) (h : wordStatus c a = .span) : readWord c m a = .span := by
  simp [readWord, h]

theorem writeWord_ok {c : Config} {a : Word} (m : Memory) (v : Word) (h : wordStatus c a = .ok) :
    writeWord c m a v = (.ok, m.setWord a.toNat v) := by simp [writeWord, h]
theorem writeWord_unmapped {c : Config} {a : Word} (m : Memory) (v : Word) (h : wordStatus c a = .unmapped) :
    writeWord c m a v = (.unmapped, m) := by simp [writeWord, h]
theorem writeWord_span {c : Config} {a : Word} (m : Memory) (v : Word) (h : wordStatus c a = .span) :
    writeWord c m a v = (.span, m) := by simp [writeWord, h]

theorem memRead_ok {c : Config} {a : Word} (m : Memory) (bits : Nat) (h : wordStatus c a = .ok) :
    memRead c m bits a = .ok ((m.word a.toNat).setWidth bits) := by simp [memRead, readWord_ok m h]
theorem memRead_unmapped {c : Config} {a : Word} (m : Memory) (bits : Nat) (h : wordStatus c a = .unmapped) :
    memRead c m bits a = .unmapped 0#bits := by simp [memRead, readWord_unmapped m h]
theorem memRead_span {c : Config} {a : Word} (m : Memory) (bits : Nat) (h : wordStatus c a = .span) :
    memRead c m bits a = .span := by simp [memRead, readWord_span m h]

theorem memWrite_ok {c : Config} {a : Word} (m : Memory) (bits : Nat) (v : Word) (h : wordStatus c a = .ok) :
    memWrite c m bits a v =
      (.ok, m.setWord a.toNat (m.word a.toNat &&& ~~~(lowMask bits) ||| v &&& lowMask bits)) := by
  simp [memWrite, readWord_ok m h, writeWord_ok m _ h]
theorem memWrite_unmapped {c : Config} {a : Word} (m : Memory) (bits : Nat) (v : Word) (h : wordStatus c a = .unmapped) :
    memWrite c m bits a v = (.unmapped, m) := by simp [memWrite, readWord_unmapped m h]
theorem memWrite_span {c : Config} {a : Word} (m : Memory) (bits : Nat) (v : Word) (h : wordStatus c a = .span) :
    memWrite c m bits a v = (.span, m) := by simp [memWrite, readWord_span m h]

/-- A word write keeps the canonical form, whatever its status. -/
theorem wf_writeWord {m : Memory} (hm : m.wf) (c : Config) (a v : Word) : (writeWord c m a v).2.wf := by
  cases h : wordStatus c a with
  | ok => rw [writeWord_ok m v h]; exact Memory.wf_setWord hm _ _
  | unmapped => rw [writeWord_unmapped m v h]; exact hm
  | span => rw [writeWord_span m v h]; exact hm

/-- A word write keeps memory inside the regions, whatever its status. -/
theorem within_writeWord {m : Memory} {c : Config} (hm : m.withinRegions c) (a v : Word) :
    (writeWord c m a v).2.withinRegions c := by
  cases h : wordStatus c a with
  | ok => rw [writeWord_ok m v h]; exact Memory.within_setWord hm h _
  | unmapped => rw [writeWord_unmapped m v h]; exact hm
  | span => rw [writeWord_span m v h]; exact hm

/-- A read-modify-write keeps the canonical form, whatever its status. -/
theorem wf_memWrite {m : Memory} (hm : m.wf) (c : Config) (bits : Nat) (a v : Word) : (memWrite c m bits a v).2.wf := by
  cases h : wordStatus c a with
  | ok => rw [memWrite_ok m bits v h]; exact Memory.wf_setWord hm _ _
  | unmapped => rw [memWrite_unmapped m bits v h]; exact hm
  | span => rw [memWrite_span m bits v h]; exact hm

/-- A read-modify-write keeps memory inside the regions, whatever its status. -/
theorem within_memWrite {m : Memory} {c : Config} (hm : m.withinRegions c) (bits : Nat) (a v : Word) :
    (memWrite c m bits a v).2.withinRegions c := by
  cases h : wordStatus c a with
  | ok => rw [memWrite_ok m bits v h]; exact Memory.within_setWord hm h _
  | unmapped => rw [memWrite_unmapped m bits v h]; exact hm
  | span => rw [memWrite_span m bits v h]; exact hm

/-! ### The read-modify-write word of SB and SH (20_memory R37) -/

/-- The bytes the mask of `8 * n` bits covers come from `v`. -/
theorem byteOfWord_merge_low (w v : Word) (n : Nat) (hn : n ∈ [1, 2, 4]) {k : Nat} (hk : k < n) :
    byteOfWord (w &&& ~~~(lowMask (8 * n)) ||| v &&& lowMask (8 * n)) k = byteOfWord v k := by
  unfold byteOfWord lowMask
  simp only [List.mem_cons, List.not_mem_nil, or_false] at hn
  rcases hn with rfl | rfl | rfl <;> interval_cases k <;>
    (ext i h; interval_cases i <;> simp)

/-- The bytes above it keep their old values. -/
theorem byteOfWord_merge_high (w v : Word) (n : Nat) (hn : n ∈ [1, 2, 4]) {k : Nat} (hk : n ≤ k) (h4 : k < 4) :
    byteOfWord (w &&& ~~~(lowMask (8 * n)) ||| v &&& lowMask (8 * n)) k = byteOfWord w k := by
  unfold byteOfWord lowMask
  simp only [List.mem_cons, List.not_mem_nil, or_false] at hn
  rcases hn with rfl | rfl | rfl <;> interval_cases k <;>
    (ext i h; interval_cases i <;> simp)

end Sys2Proof.Machine
end

