-- ==== Sys2Proof/Laws/Ops.lean ====
section
/-! SUPPORT. What each shared instruction shape can do: one lemma by cases, and the fields it leaves alone. -/

namespace Sys2Proof.Machine

/-! ### `State.load` (46_load_store R133) -/

theorem State.load_ok {s : State} {rs : Reg} {imm : BitVec 16} (bits : Nat) (ext : BitVec bits → Word) (rt : Reg)
    (h : wordStatus s.config (effectiveAddress (s.x rs) imm) = .ok) : s.load bits ext rt rs imm =
      s.setX rt (ext ((s.mem.word (effectiveAddress (s.x rs) imm).toNat).setWidth bits)) := by
  simp [State.load, memRead_ok _ _ h]

theorem State.load_unmapped {s : State} {rs : Reg} {imm : BitVec 16} (bits : Nat) (ext : BitVec bits → Word) (rt : Reg)
    (h : wordStatus s.config (effectiveAddress (s.x rs) imm) = .unmapped) :
    s.load bits ext rt rs imm = s.setX rt (ext 0#bits) := by
  simp [State.load, memRead_unmapped _ _ h]

theorem State.load_span {s : State} {rs : Reg} {imm : BitVec 16} (bits : Nat) (ext : BitVec bits → Word) (rt : Reg)
    (h : wordStatus s.config (effectiveAddress (s.x rs) imm) = .span) :
    s.load bits ext rt rs imm = s.report .misalignedSpan := by
  simp [State.load, memRead_span _ _ h]

/-- A load writes its destination or reports the span diagnostic, and does nothing else. -/
theorem State.load_cases (s : State) (bits : Nat) (ext : BitVec bits → Word) (rt rs : Reg) (imm : BitVec 16) :
    (∃ v, s.load bits ext rt rs imm = s.setX rt v) ∨
    (wordStatus s.config (effectiveAddress (s.x rs) imm) = .span ∧
      s.load bits ext rt rs imm = s.report .misalignedSpan) := by
  cases h : wordStatus s.config (effectiveAddress (s.x rs) imm) with
  | ok => exact .inl ⟨_, State.load_ok bits ext rt h⟩
  | unmapped => exact .inl ⟨_, State.load_unmapped bits ext rt h⟩
  | span => exact .inr ⟨rfl, State.load_span bits ext rt h⟩

/-! ### `State.store` (46_load_store R133) -/

theorem State.store_ok {s : State} {rs : Reg} {imm : BitVec 16} (bits : Nat) (rt : Reg)
    (h : wordStatus s.config (effectiveAddress (s.x rs) imm) = .ok) : s.store bits rt rs imm =
      s.setMem (s.mem.setWord (effectiveAddress (s.x rs) imm).toNat
        (s.mem.word (effectiveAddress (s.x rs) imm).toNat &&& ~~~(lowMask bits) ||| s.x rt &&& lowMask bits)) := by
  simp [State.store, memWrite_ok _ _ _ h]

theorem State.store_unmapped {s : State} {rs : Reg} {imm : BitVec 16} (bits : Nat) (rt : Reg)
    (h : wordStatus s.config (effectiveAddress (s.x rs) imm) = .unmapped) : s.store bits rt rs imm = s := by
  simp [State.store, memWrite_unmapped _ _ _ h]

theorem State.store_span {s : State} {rs : Reg} {imm : BitVec 16} (bits : Nat) (rt : Reg)
    (h : wordStatus s.config (effectiveAddress (s.x rs) imm) = .span) :
    s.store bits rt rs imm = s.report .misalignedSpan := by
  simp [State.store, memWrite_span _ _ _ h]

/-- A store writes a word where the status is OK, or does nothing, or reports the span diagnostic. -/
theorem State.store_cases (s : State) (bits : Nat) (rt rs : Reg) (imm : BitVec 16) :
    (wordStatus s.config (effectiveAddress (s.x rs) imm) = .ok ∧
      ∃ v, s.store bits rt rs imm = s.setMem (s.mem.setWord (effectiveAddress (s.x rs) imm).toNat v)) ∨
    (wordStatus s.config (effectiveAddress (s.x rs) imm) = .unmapped ∧ s.store bits rt rs imm = s) ∨
    (wordStatus s.config (effectiveAddress (s.x rs) imm) = .span ∧ s.store bits rt rs imm = s.report .misalignedSpan) := by
  cases h : wordStatus s.config (effectiveAddress (s.x rs) imm) with
  | ok => exact .inl ⟨rfl, _, State.store_ok bits rt h⟩
  | unmapped => exact .inr (.inl ⟨rfl, State.store_unmapped bits rt h⟩)
  | span => exact .inr (.inr ⟨rfl, State.store_span bits rt h⟩)

/-- The bytes a store of `n` bytes leaves in memory: its own are those of the register, every other reads as before. -/
theorem Memory.byte_store {m : Memory} (hm : m.wf) (a : Nat) (v : Word) {n : Nat} (hn : n ∈ [1, 2, 4]) :
    (∀ k, k < n → (m.setWord a (m.word a &&& ~~~(lowMask (8 * n)) ||| v &&& lowMask (8 * n))).byte (a + k) = byteOfWord v k) ∧
    ∀ b, (b < a ∨ a + n ≤ b) →
      (m.setWord a (m.word a &&& ~~~(lowMask (8 * n)) ||| v &&& lowMask (8 * n))).byte b = m.byte b := by
  have h4 : n ≤ 4 := by
    simp only [List.mem_cons, List.not_mem_nil, or_false] at hn
    omega
  constructor
  · intro k hk
    rw [Memory.byte_setWord_inside hm a _ (Nat.lt_of_lt_of_le hk h4), byteOfWord_merge_low _ _ n hn hk]
  · intro b hb
    by_cases hout : b < a ∨ a + 4 ≤ b
    · exact Memory.byte_setWord_outside m _ hout
    · obtain ⟨k, rfl⟩ : ∃ k, b = a + k := ⟨b - a, by omega⟩
      have hk4 : k < 4 := by omega
      rw [Memory.byte_setWord_inside hm a _ hk4, byteOfWord_merge_high _ _ n hn (by omega) hk4]
      unfold Memory.word
      interval_cases k <;> simp

/-! ### `State.branchIf` (40_cycle_driver R72) -/

theorem State.branchIf_taken (s : State) (imm : BitVec 16) :
    s.branchIf true imm = s.stage (branchTarget s.pc imm) := rfl

theorem State.branchIf_not_taken (s : State) (imm : BitVec 16) : s.branchIf false imm = s := rfl

/-- A branch stages its target or does nothing. -/
theorem State.branchIf_cases (s : State) (taken : Bool) (imm : BitVec 16) :
    (taken = true ∧ s.branchIf taken imm = s.stage (branchTarget s.pc imm)) ∨
    (taken = false ∧ s.branchIf taken imm = s) := by
  cases taken
  · exact .inr ⟨rfl, rfl⟩
  · exact .inl ⟨rfl, rfl⟩

/-! ### `State.divide` (43_muldiv_hilo R107, R108) -/

theorem State.divide_by_zero (s : State) (q r : Word) : s.divide 0#32 q r = s.report .divideByZero := by
  simp [State.divide]

theorem State.divide_nonzero (s : State) {d : Word} (q r : Word) (h : d ≠ 0#32) : s.divide d q r = (s.setLo q).setHi r := by
  simp [State.divide, h]

end Sys2Proof.Machine
end

