-- ==== Sys2Proof/Laws/Cycle.lean ====
section
/-! SUPPORT. What a step can do, said once (40_cycle_driver R70, R79): a halted core stays; a running one executes a SPAN
fetch, an `Unknown` word or an instruction in the prepared state, and finishes. -/

namespace Sys2Proof.Machine

theorem step_of_halted {s : State} (h : s.run = .halted) : step s = .next s := by simp [step, h]

theorem step_of_running {s : State} (h : s.run = .running) : step s = s.cycle := by simp [step, h]

theorem cycle_of_aligned {s : State} (h : isAligned s.pc = true) : s.cycle = finishOutcome (runFetched s.prepare) := by
  simp [State.cycle, h]

theorem cycle_of_unaligned {s : State} (h : isAligned s.pc = false) : s.cycle = .fault .unalignedPc := by
  simp [State.cycle, h]

theorem step_of_cycleStarts {s : State} (h : s.cycleStarts) : step s = finishOutcome (runFetched s.prepare) := by
  rw [step_of_running h.1, cycle_of_aligned h.2]

theorem runFetched_of_fetch {s : State} {w : Word} (h : s.fetchedWord = some w) : runFetched s = runWord w s := by
  simp [runFetched, h]

theorem runFetched_of_span {s : State} (h : s.fetchedWord = none) : runFetched s = .next (s.report .misalignedSpan) := by
  simp [runFetched, h]

theorem runWord_of_instr {w : Word} {i : Instr} (s : State) (h : decode w = .instr i) : runWord w s = exec i s := by
  simp [runWord, h]

theorem runWord_of_unknown {w : Word} (s : State) (h : decode w = .unknown) :
    runWord w s = .next (s.report .unknownOpcode) := by
  simp [runWord, h, execUnknown]

theorem finishOutcome_next (t : State) : finishOutcome (.next t) = .next t.finish := rfl

/-- Where the finished outcome is a next state, the execute phase gave one. -/
theorem finishOutcome_eq_next {o : Host.Outcome State Fault Refusal} {t : State} (h : finishOutcome o = .next t) :
    ∃ u, o = .next u ∧ t = u.finish := by
  cases o with
  | next u => exact ⟨u, rfl, by injection h with h; exact h.symm⟩
  | fault f => cases h
  | refused r => cases h

/-- A fetch fails only by SPAN (40_cycle_driver R75). -/
theorem fetchedWord_eq_none {s : State} (h : s.fetchedWord = none) : wordStatus s.config s.pc = .span := by
  cases hs : wordStatus s.config s.pc with
  | ok => simp [State.fetchedWord, readWord_ok _ hs] at h
  | unmapped => simp [State.fetchedWord, readWord_unmapped _ hs] at h
  | span => rfl

/-- Everything a step that answers a next state can have done. -/
theorem step_cases {s t : State} (h : step s = .next t) :
    (s.run = .halted ∧ t = s) ∨
    (s.cycleStarts ∧ s.fetchedWord = none ∧ t = (s.prepare.report .misalignedSpan).finish) ∨
    (s.executesUnknown ∧ t = (s.prepare.report .unknownOpcode).finish) ∨
    (∃ i u, s.executes i ∧ exec i s.prepare = .next u ∧ t = u.finish) := by
  cases hr : s.run with
  | halted =>
    rw [step_of_halted hr] at h
    injection h with h
    exact .inl ⟨rfl, h.symm⟩
  | running =>
    cases ha : isAligned s.pc with
    | false => rw [step_of_running hr, cycle_of_unaligned ha] at h; cases h
    | true =>
      have hc : s.cycleStarts := ⟨hr, ha⟩
      rw [step_of_cycleStarts hc] at h
      cases hf : s.fetchedWord with
      | none =>
        rw [runFetched_of_span (by simpa using hf), finishOutcome_next] at h
        injection h with h
        exact .inr (.inl ⟨hc, rfl, h.symm⟩)
      | some w =>
        rw [runFetched_of_fetch (w := w) (by simpa using hf)] at h
        cases hd : decode w with
        | unknown =>
          rw [runWord_of_unknown _ hd, finishOutcome_next] at h
          injection h with h
          exact .inr (.inr (.inl ⟨⟨w, ⟨hc, hf⟩, hd⟩, h.symm⟩))
        | instr i =>
          rw [runWord_of_instr _ hd] at h
          obtain ⟨u, hu, rfl⟩ := finishOutcome_eq_next h
          exact .inr (.inr (.inr ⟨i, u, ⟨w, ⟨hc, hf⟩, hd⟩, hu, rfl⟩))

/-- A state executes one instruction only: decoding is a function of the fetched word (30_encoding R60). -/
theorem executes_unique {s : State} {i k : Instr} (hi : s.executes i) (hk : s.executes k) : i = k := by
  obtain ⟨w, hw, hd⟩ := hi
  obtain ⟨v, hv, he⟩ := hk
  have : w = v := Option.some.inj (hw.2.symm.trans hv.2)
  subst this
  exact Decoded.instr.inj (hd.symm.trans he)

end Sys2Proof.Machine
end

