-- ==== Sys2Proof/Laws/Decode.lean ====
section
/-! SUPPORT. The small lemmas of the encoding: the fields of an encoded word (30_encoding R51), and how a decoded word names
the fields it was read from. -/

namespace Sys2Proof

/-! ### Register fields -/

@[simp] theorem regOfField_fieldOfReg (r : Reg) : regOfField (fieldOfReg r) = r := by
  apply Fin.ext; simp [regOfField, fieldOfReg]

@[simp] theorem fieldOfReg_regOfField (f : BitVec 5) : fieldOfReg (regOfField f) = f := by
  simp [regOfField, fieldOfReg]

@[simp] theorem fieldOfReg_zero : fieldOfReg 0 = 0#5 := rfl
@[simp] theorem fieldOfReg_one : fieldOfReg 1 = 1#5 := rfl
@[simp] theorem fieldOfReg_rsOf (w : Word) : fieldOfReg (rsOf w) = rsField w := by simp [rsOf]
@[simp] theorem fieldOfReg_rtOf (w : Word) : fieldOfReg (rtOf w) = rtField w := by simp [rtOf]
@[simp] theorem fieldOfReg_rdOf (w : Word) : fieldOfReg (rdOf w) = rdField w := by simp [rdOf]

/-! ### Fields of an R-format word -/

section
variable (rs rt rd sh : BitVec 5) (f : BitVec 6)

@[simp] theorem opcodeOf_encodeR : opcodeOf (encodeR rs rt rd sh f) = 0#6 := by
  unfold opcodeOf encodeR placeField; ext i h; interval_cases i <;> simp
@[simp] theorem rsField_encodeR : rsField (encodeR rs rt rd sh f) = rs := by
  unfold rsField encodeR placeField; ext i h; interval_cases i <;> simp
@[simp] theorem rtField_encodeR : rtField (encodeR rs rt rd sh f) = rt := by
  unfold rtField encodeR placeField; ext i h; interval_cases i <;> simp
@[simp] theorem rdField_encodeR : rdField (encodeR rs rt rd sh f) = rd := by
  unfold rdField encodeR placeField; ext i h; interval_cases i <;> simp
@[simp] theorem shamtOf_encodeR : shamtOf (encodeR rs rt rd sh f) = sh := by
  unfold shamtOf encodeR placeField; ext i h; interval_cases i <;> simp
@[simp] theorem functOf_encodeR : functOf (encodeR rs rt rd sh f) = f := by
  unfold functOf encodeR placeField; ext i h; interval_cases i <;> simp

/-- What the mask of an R-format row selects (30_encoding R59). -/
theorem encodeR_selector : encodeR rs rt rd sh f &&& 0xFC00003F#32 = f.setWidth 32 := by
  unfold encodeR placeField; ext i h; interval_cases i <;> simp

end

/-! ### Fields of an I-format word -/

section
variable (op : BitVec 6) (rs rt : BitVec 5) (imm : BitVec 16)

@[simp] theorem opcodeOf_encodeI : opcodeOf (encodeI op rs rt imm) = op := by
  unfold opcodeOf encodeI placeField; ext i h; interval_cases i <;> simp
@[simp] theorem rsField_encodeI : rsField (encodeI op rs rt imm) = rs := by
  unfold rsField encodeI placeField; ext i h; interval_cases i <;> simp
@[simp] theorem rtField_encodeI : rtField (encodeI op rs rt imm) = rt := by
  unfold rtField encodeI placeField; ext i h; interval_cases i <;> simp
@[simp] theorem immOf_encodeI : immOf (encodeI op rs rt imm) = imm := by
  unfold immOf encodeI placeField; ext i h; interval_cases i <;> simp

/-- What the mask of an I-format row selects (30_encoding R59). -/
theorem encodeI_selector : encodeI op rs rt imm &&& 0xFC000000#32 = op.setWidth 32 <<< 26 := by
  unfold encodeI placeField; ext i h; interval_cases i <;> simp

/-- What the mask of BLTZ and BGEZ selects (30_encoding R55, R59). -/
theorem encodeI_selector_rt :
    encodeI op rs rt imm &&& 0xFC1F0000#32 = op.setWidth 32 <<< 26 ||| rt.setWidth 32 <<< 16 := by
  unfold encodeI placeField; ext i h; interval_cases i <;> simp

end

/-! ### Fields of a J-format word -/

section
variable (op : BitVec 6) (t : BitVec 26)

@[simp] theorem opcodeOf_encodeJ : opcodeOf (encodeJ op t) = op := by
  unfold opcodeOf encodeJ placeField; ext i h; interval_cases i <;> simp
@[simp] theorem targetOf_encodeJ : targetOf (encodeJ op t) = t := by
  unfold targetOf encodeJ placeField; ext i h; interval_cases i <;> simp

/-- What the mask of a J-format row selects (30_encoding R59). -/
theorem encodeJ_selector : encodeJ op t &&& 0xFC000000#32 = op.setWidth 32 <<< 26 := by
  unfold encodeJ placeField; ext i h; interval_cases i <;> simp

end

/-! ### A word is its fields -/

/-- An R-format word is the encoding of its fields. -/
theorem encodeR_fields {w : Word} (h : opcodeOf w = 0#6) :
    encodeR (rsField w) (rtField w) (rdField w) (shamtOf w) (functOf w) = w := by
  have hb : ∀ k, k < 6 → w.getLsbD (26 + k) = false := by
    intro k hk
    have := congrArg (fun v => v.getLsbD k) h
    simpa [opcodeOf, hk] using this
  unfold encodeR placeField rsField rtField rdField shamtOf functOf
  ext i hi
  have h0 := hb 0 (by omega); have h1 := hb 1 (by omega); have h2 := hb 2 (by omega)
  have h3 := hb 3 (by omega); have h4 := hb 4 (by omega); have h5 := hb 5 (by omega)
  interval_cases i <;> simp_all

/-- An I-format word is the encoding of its fields. -/
theorem encodeI_fields (w : Word) : encodeI (opcodeOf w) (rsField w) (rtField w) (immOf w) = w := by
  unfold encodeI placeField opcodeOf rsField rtField immOf
  ext i hi
  interval_cases i <;> simp

/-- A J-format word is the encoding of its fields. -/
theorem encodeJ_fields (w : Word) : encodeJ (opcodeOf w) (targetOf w) = w := by
  unfold encodeJ placeField opcodeOf targetOf
  ext i hi
  interval_cases i <;> simp

end Sys2Proof
end

