-- ==== Sys2Proof/Laws/Exec.lean ====
section
/-! SUPPORT. What any instruction can do, said once: nine shapes of effect, with the class of instruction and the condition
under which each occurs (41_alu_register to 48_syscall_unknown). -/

namespace Sys2Proof.Machine

/-- The possible effects of an instruction executed in `s`. -/
inductive Effect (i : Instr) (s : State) : State → Prop where
  | nothing : (∀ a, accessAddress s i = some a → wordStatus s.config a = .unmapped) → (i = .syscall → s.x 2 ≠ exitCode) →
      (divisorOf s i = none) → Effect i s s
  | writes (rd : Reg) (v : Word) : destination i = some rd → isTransfer i = false →
      (∀ a, accessAddress s i = some a → wordStatus s.config a ≠ .span) → Effect i s (s.setX rd v)
  | stages (a : Word) : isTransfer i = true → destination i = none →
      (isAligned s.pc = true → isAligned a = true) ∨ registerTarget s i = some a → Effect i s (s.stage a)
  | links (a : Word) (rd : Reg) (v : Word) : isTransfer i = true → destination i = some rd →
      (isAligned s.pc = true → isAligned a = true) ∨ registerTarget s i = some a → Effect i s ((s.stage a).setX rd v)
  | hiLo (hi lo : Word) : writesHiLo i = true → divisorOf s i ≠ some 0#32 → Effect i s ((s.setHi hi).setLo lo)
  | divideByZero : writesHiLo i = true → divisorOf s i = some 0#32 → Effect i s (s.report .divideByZero)
  | span (a : Word) : accessAddress s i = some a → wordStatus s.config a = .span → Effect i s (s.report .misalignedSpan)
  | stores (a : Word) (n : Nat) (v : Word) : storeSpan s i = some (a, n) → accessAddress s i = some a →
      wordStatus s.config a = .ok → n ∈ [1, 2, 4] →
      Effect i s (s.setMem (s.mem.setWord a.toNat (s.mem.word a.toNat &&& ~~~(lowMask (8 * n)) ||| v &&& lowMask (8 * n))))
  | exits : i = .syscall → s.x 2 = exitCode → Effect i s s.signalExit

/-! ### Alignment of the computed targets (10_state R15) -/

theorem isAligned_branchTarget {pc : Word} (imm : BitVec 16) (h : isAligned pc = true) :
    isAligned (branchTarget pc imm) = true := by
  simp only [isAligned, decide_eq_true_eq] at *
  have hn := congrArg BitVec.toNat h
  apply BitVec.eq_of_toNat_eq
  simp [branchTarget, BitVec.extractLsb'_toNat, Nat.shiftLeft_eq] at *
  omega

theorem isAligned_jumpTarget (pc : Word) (target : BitVec 26) : isAligned (jumpTarget pc target) = true := by
  simp only [isAligned, decide_eq_true_eq]
  unfold jumpTarget
  ext i h; interval_cases i <;> simp

theorem isAligned_add_four {a : Word} (h : isAligned a = true) : isAligned (a + 4#32) = true := by
  simp only [isAligned, decide_eq_true_eq] at *
  have hn := congrArg BitVec.toNat h
  apply BitVec.eq_of_toNat_eq
  simp [BitVec.extractLsb'_toNat] at *
  omega

/-! ### The shared shapes -/

theorem effect_load {i : Instr} {s : State} {rs : Reg} {imm : BitVec 16} (bits : Nat) (ext : BitVec bits → Word) (rt : Reg)
    (hd : destination i = some rt) (ht : isTransfer i = false)
    (ha : accessAddress s i = some (effectiveAddress (s.x rs) imm)) : Effect i s (s.load bits ext rt rs imm) := by
  cases h : wordStatus s.config (effectiveAddress (s.x rs) imm) with
  | ok => rw [State.load_ok _ _ _ h]; exact .writes _ _ hd ht (by simp_all)
  | unmapped => rw [State.load_unmapped _ _ _ h]; exact .writes _ _ hd ht (by simp_all)
  | span => rw [State.load_span _ _ _ h]; exact .span _ ha h

theorem effect_store {i : Instr} {s : State} {rs : Reg} {imm : BitVec 16} (n : Nat) (rt : Reg) (hn : n ∈ [1, 2, 4])
    (hs : storeSpan s i = some (effectiveAddress (s.x rs) imm, n))
    (ha : accessAddress s i = some (effectiveAddress (s.x rs) imm)) (hi : i ≠ .syscall) (hv : divisorOf s i = none) :
    Effect i s (s.store (8 * n) rt rs imm) := by
  cases h : wordStatus s.config (effectiveAddress (s.x rs) imm) with
  | ok => rw [State.store_ok _ _ h]; exact .stores _ _ _ hs ha h hn
  | unmapped => rw [State.store_unmapped _ _ h]; exact .nothing (by simp_all) (fun h => absurd h hi) hv
  | span => rw [State.store_span _ _ h]; exact .span _ ha h

theorem effect_branchIf {i : Instr} {s : State} (taken : Bool) (imm : BitVec 16) (ht : isTransfer i = true)
    (hd : destination i = none) (ha : accessAddress s i = none) (hi : i ≠ .syscall) (hv : divisorOf s i = none) :
    Effect i s (s.branchIf taken imm) := by
  cases taken
  · exact .nothing (by simp_all) (fun h => absurd h hi) hv
  · exact .stages _ ht hd (.inl (isAligned_branchTarget imm))

theorem effect_divide {i : Instr} {s : State} (d q r : Word) (hw : writesHiLo i = true) (hv : divisorOf s i = some d) :
    Effect i s (s.divide d q r) := by
  by_cases h : d = 0#32
  · subst h; rw [State.divide_by_zero]; exact .divideByZero hw hv
  · rw [State.divide_nonzero _ _ _ h]; exact .hiLo r q hw (by simp [hv, h])

/-- Whatever the instruction and the state, `exec` gives a next state by one of the effects. -/
theorem exec_effect {i : Instr} {s t : State} (h : exec i s = .next t) : Effect i s t := by
  cases i <;> (simp only [exec] at h; injection h with h; subst h)
  case add | addu | sub | subu | and | or | nor | xor | slt | sll | srl | sra | mfhi | mflo =>
    exact .writes _ _ rfl rfl (by simp [accessAddress])
  case addi | addiu | andi | ori | xori | slti | lui => exact .writes _ _ rfl rfl (by simp [accessAddress])
  case lb | lh | lw => exact effect_load _ _ _ rfl rfl rfl
  case sb => exact effect_store 1 _ (by simp) rfl rfl (by simp) rfl
  case sh => exact effect_store 2 _ (by simp) rfl rfl (by simp) rfl
  case sw => exact effect_store 4 _ (by simp) rfl rfl (by simp) rfl
  case beq | bne | bgtz | blez | bgez | bltz => exact effect_branchIf _ _ rfl rfl rfl (by simp) rfl
  case div | divu => exact effect_divide _ _ _ rfl rfl
  case mult | multu => exact .hiLo _ _ rfl (by simp [divisorOf])
  case mthi r => exact .hiLo (s.x r) s.nxt.lo rfl (by simp [divisorOf])
  case mtlo r => exact .hiLo s.nxt.hi (s.x r) rfl (by simp [divisorOf])
  case jr => exact .stages _ rfl rfl (.inr rfl)
  case j => exact .stages _ rfl rfl (.inl fun _ => isAligned_jumpTarget _ _)
  case jalr => exact .links _ _ _ rfl rfl (.inr rfl)
  case jal => exact .links _ _ _ rfl rfl (.inl fun _ => isAligned_jumpTarget _ _)
  case syscall =>
    split
    · exact .exits rfl ‹_›
    · exact .nothing (by simp [accessAddress]) (fun _ => ‹_›) rfl

end Sys2Proof.Machine
end

