-- ==== Sys2Proof/Laws/HostPort.lean ====
section
/-! SUPPORT. Runs under stop requests (40_cycle_driver R80 to R82): what each boundary does, and where a stop ends the run. -/

namespace Sys2Proof.Machine

@[simp] theorem State.stopIf_false (s : State) : s.stopIf false = s := rfl

@[simp] theorem State.stopIf_true (s : State) : s.stopIf true = s.hostStop := rfl

@[simp] theorem State.runUnder_nil (s : State) : s.runUnder [] = .next s := rfl

/-- A halted core goes no further, whatever stops arrive (R80, R82). -/
@[simp] theorem State.runUnder_of_halted {s : State} (h : s.run = .halted) (stops : List Bool) :
    s.runUnder stops = .next s := by
  have stop_of_halted : s.hostStop = s := by cases s; cases h; rfl
  cases stops with
  | nil => rfl
  | cons stop stops => cases stop <;> simp [State.runUnder, stop_of_halted, h]

/-- A stop presented at a boundary ends the run there (R82). -/
@[simp] theorem State.runUnder_stop (s : State) (stops : List Bool) : s.runUnder (true :: stops) = .next s.hostStop := rfl

/-- Without a stop at the boundary a running core does one step and the run goes on (R80). -/
theorem State.runUnder_of_step {s t : State} (h : s.run = .running) (hs : step s = .next t) (stops : List Bool) :
    s.runUnder (false :: stops) = t.runUnder stops := by
  simp [State.runUnder, h, hs]

/-- Everything a run that returns can have done at its first boundary. -/
theorem State.runUnder_cases {s t : State} {stop : Bool} {stops : List Bool} (h : s.runUnder (stop :: stops) = .next t) :
    (stop = true ∧ t = s.hostStop) ∨ (stop = false ∧ s.run = .halted ∧ t = s) ∨
    (stop = false ∧ s.run = .running ∧ ∃ u, step s = .next u ∧ u.runUnder stops = .next t) := by
  cases stop with
  | true => injection h with h; exact .inl ⟨rfl, h.symm⟩
  | false =>
    cases hr : s.run with
    | halted => rw [State.runUnder_of_halted hr] at h; injection h with h; exact .inr (.inl ⟨rfl, rfl, h.symm⟩)
    | running =>
      cases hs : step s with
      | next u => rw [State.runUnder_of_step hr hs] at h; exact .inr (.inr ⟨rfl, rfl, u, rfl, h⟩)
      | fault f => simp [State.runUnder, hr, hs] at h
      | refused r => simp [State.runUnder, hr, hs] at h

/-- A run stopped after `k` cycles ends in the state those cycles gave, with `RUN` = HALTED (R80, R82). -/
theorem State.runUnder_stop_after {s t : State} {k : Nat} (h : s.runFor k = .next t) (stops : List Bool) :
    s.runUnder (List.replicate k false ++ true :: stops) = .next t.hostStop := by
  induction k generalizing s with
  | zero => injection h with h; subst h; rfl
  | succ k ih =>
    obtain ⟨hf, _⟩ | ⟨_, hr, rfl⟩ | ⟨_, hr, u, hs, hu⟩ := State.runUnder_cases h
    · cases hf
    · rw [State.runUnder_of_halted hr]; cases t; cases hr; rfl
    · rw [List.replicate_succ, List.cons_append, State.runUnder_of_step hr hs, ih hu]

/-- `run_to_completion` stopped after `k` cycles returns (R81). -/
theorem State.completesUnder_stop_after {s t : State} {k : Nat} (h : s.runFor k = .next t) :
    s.completesUnder (List.replicate k false ++ [true]) t.hostStop :=
  ⟨0, by simpa using State.runUnder_stop_after h [], rfl⟩

/-- `run_to_completion` without a stop is the case of no stop requests. -/
theorem State.completesUnder_nil (s t : State) : s.completesUnder [] t ↔ s.completesIn t := Iff.rfl

end Sys2Proof.Machine
end

