-- ==== Sys2Proof/Laws/PerInstr.lean ====
section
/-! SUPPORT. Facts stated instruction by instruction. Family `TableRow`: an encoded instruction matches its row of
spec/opcode_table.json (`encode i &&& mask = match`). -/

namespace Sys2Proof.Laws.TableRow

/-- The row of the opcode table that an instruction's word matches (30_encoding R53 to R56, R59). -/
def Statement (i : Instr) : Prop := encode i &&& selectorMask i = selectorBits i

/-- Every instruction matches its row: the mask selects the row's opcode and funct, or its opcode and `rt` selector. -/
theorem every (i : Instr) : Statement i := by
  cases i <;>
    simp [Statement, encode, encodeRdRsRt, encodeShift, encodeRtRsImm, encodeR_selector, encodeI_selector, encodeI_selector_rt,
      encodeJ_selector, selectorMask, selectorBits]

theorem add (rd rs rt : Reg) : Statement (.add rd rs rt) := every _
theorem addu (rd rs rt : Reg) : Statement (.addu rd rs rt) := every _
theorem sub (rd rs rt : Reg) : Statement (.sub rd rs rt) := every _
theorem subu (rd rs rt : Reg) : Statement (.subu rd rs rt) := every _
theorem and (rd rs rt : Reg) : Statement (.and rd rs rt) := every _
theorem or (rd rs rt : Reg) : Statement (.or rd rs rt) := every _
theorem nor (rd rs rt : Reg) : Statement (.nor rd rs rt) := every _
theorem xor (rd rs rt : Reg) : Statement (.xor rd rs rt) := every _
theorem slt (rd rs rt : Reg) : Statement (.slt rd rs rt) := every _
theorem sll (rd rt : Reg) (shamt : BitVec 5) : Statement (.sll rd rt shamt) := every _
theorem srl (rd rt : Reg) (shamt : BitVec 5) : Statement (.srl rd rt shamt) := every _
theorem sra (rd rt : Reg) (shamt : BitVec 5) : Statement (.sra rd rt shamt) := every _
theorem mult (rs rt : Reg) : Statement (.mult rs rt) := every _
theorem multu (rs rt : Reg) : Statement (.multu rs rt) := every _
theorem div (rs rt : Reg) : Statement (.div rs rt) := every _
theorem divu (rs rt : Reg) : Statement (.divu rs rt) := every _
theorem mfhi (rd : Reg) : Statement (.mfhi rd) := every _
theorem mflo (rd : Reg) : Statement (.mflo rd) := every _
theorem mthi (rs : Reg) : Statement (.mthi rs) := every _
theorem mtlo (rs : Reg) : Statement (.mtlo rs) := every _
theorem jr (rs : Reg) : Statement (.jr rs) := every _
theorem jalr (rd rs : Reg) : Statement (.jalr rd rs) := every _
theorem addi (rt rs : Reg) (imm : BitVec 16) : Statement (.addi rt rs imm) := every _
theorem addiu (rt rs : Reg) (imm : BitVec 16) : Statement (.addiu rt rs imm) := every _
theorem andi (rt rs : Reg) (imm : BitVec 16) : Statement (.andi rt rs imm) := every _
theorem ori (rt rs : Reg) (imm : BitVec 16) : Statement (.ori rt rs imm) := every _
theorem xori (rt rs : Reg) (imm : BitVec 16) : Statement (.xori rt rs imm) := every _
theorem slti (rt rs : Reg) (imm : BitVec 16) : Statement (.slti rt rs imm) := every _
theorem lui (rt : Reg) (imm : BitVec 16) : Statement (.lui rt imm) := every _
theorem lb (rt rs : Reg) (imm : BitVec 16) : Statement (.lb rt rs imm) := every _
theorem lh (rt rs : Reg) (imm : BitVec 16) : Statement (.lh rt rs imm) := every _
theorem lw (rt rs : Reg) (imm : BitVec 16) : Statement (.lw rt rs imm) := every _
theorem sb (rt rs : Reg) (imm : BitVec 16) : Statement (.sb rt rs imm) := every _
theorem sh (rt rs : Reg) (imm : BitVec 16) : Statement (.sh rt rs imm) := every _
theorem sw (rt rs : Reg) (imm : BitVec 16) : Statement (.sw rt rs imm) := every _
theorem beq (rs rt : Reg) (imm : BitVec 16) : Statement (.beq rs rt imm) := every _
theorem bne (rs rt : Reg) (imm : BitVec 16) : Statement (.bne rs rt imm) := every _
theorem bgtz (rs : Reg) (imm : BitVec 16) : Statement (.bgtz rs imm) := every _
theorem blez (rs : Reg) (imm : BitVec 16) : Statement (.blez rs imm) := every _
theorem bgez (rs : Reg) (imm : BitVec 16) : Statement (.bgez rs imm) := every _
theorem bltz (rs : Reg) (imm : BitVec 16) : Statement (.bltz rs imm) := every _
theorem j (target : BitVec 26) : Statement (.j target) := every _
theorem jal (target : BitVec 26) : Statement (.jal target) := every _
theorem syscall : Statement .syscall := every _

end Sys2Proof.Laws.TableRow
end

