-- ==== Sys2Proof/Tests/Slice0.lean ====
section
/-! SUPPORT. Tests of one step each, expected values from 95_test_vectors (the section is named at each group), and one
witness for every claim that has hypotheses. -/

namespace Sys2Proof.Tests

open Sys2Proof.Machine

/-! ### Helpers -/

/-- Reset in the test configuration, words loaded from the text base, registers injected, data words written. -/
def start (program : List Word) (regs : List (Reg × Word)) (data : List (Word × Word)) : State :=
  data.foldl (fun s d => (s.hostWriteWord d.1 d.2).2)
    (regs.foldl (fun s r => s.hostInject ⟨.gpr r.1, r.2⟩) (State.reset.hostLoad program))

/-- The state after one step, or the state itself where the step gives none. -/
def after (s : State) : State :=
  match step s with
  | .next t => t
  | .fault _ => s
  | .refused _ => s

/-- The step gives a next state. -/
def runs (s : State) : Bool :=
  match step s with
  | .next _ => true
  | .fault _ => false
  | .refused _ => false

theorem step_eq_after {s : State} (h : runs s = true) : step s = .next (after s) := by
  unfold runs at h
  unfold after
  cases hs : step s with
  | next t => rfl
  | fault f => rw [hs] at h; cases h
  | refused r => rw [hs] at h; cases h

theorem executes_of {s : State} {w : Word} {i : Instr}
    (h : s.run = .running ∧ isAligned s.pc = true ∧ s.fetchedWord = some w ∧ decode w = .instr i) : s.executes i :=
  ⟨w, ⟨⟨h.1, h.2.1⟩, h.2.2.1⟩, h.2.2.2⟩

/-- Register `r` after one step of one word, with two registers set. -/
def reg3 (w a b : Word) (r : Reg) : Word := (after (start [w] [(1, a), (2, b)] [])).x r

/-- `HI` and `LO` after one step of one word, with two registers set and `HI` = 1, `LO` = 2 before. -/
def hiLo (w a b : Word) : Word × Word :=
  let s := after (((start [w] [(1, a), (2, b)] []).hostInject ⟨.hi, 1#32⟩).hostInject ⟨.lo, 2#32⟩)
  (s.cur.hi, s.cur.lo)

/-- What a transfer at the text base stages, with registers 1 and 2 set. -/
def staged (w a b : Word) : Option Word := (after (start [w] [(1, a), (2, b)] [])).cur.bd

/-- The data region's base, `D` of 95_test_vectors. -/
def dataBase : Word := 0x10010000#32

/-! ### Well-formed configurations (00_scope R3) -/

theorem test_config_tc : Config.tc.wf = true := by decide

theorem test_config_refuses_unaligned_base :
    (Config.mk [⟨0x00400002, 0x1000⟩] 0x00400002#32).basesAligned = false ∧
    (Config.mk [⟨0x00400002, 0x1000⟩] 0x00400002#32).wf = false := by decide

theorem test_config_refuses_unaligned_size :
    (Config.mk [⟨0x00400000, 0x1002⟩] 0x00400000#32).sizesAligned = false ∧
    (Config.mk [⟨0x00400000, 0x1002⟩] 0x00400000#32).wf = false := by decide

theorem test_config_refuses_empty_region :
    (Config.mk [⟨0x00400000, 0⟩] 0x00400000#32).sizesPositive = false ∧
    (Config.mk [⟨0x00400000, 0⟩] 0x00400000#32).wf = false := by decide

theorem test_config_refuses_wrapping_region :
    (Config.mk [⟨0xFFFFF000, 0x1004⟩] 0xFFFFF000#32).regionsFit = false ∧
    (Config.mk [⟨0xFFFFF000, 0x1004⟩] 0xFFFFF000#32).wf = false ∧
    (Config.mk [⟨0xFFFFF000, 0x1000⟩] 0xFFFFF000#32).wf = true := by decide

theorem test_config_refuses_overlap :
    (Config.mk [⟨0x00400000, 0x1000⟩, ⟨0x00400FFC, 0x1000⟩] 0x00400000#32).regionsDisjoint = false ∧
    (Config.mk [⟨0x00400000, 0x1000⟩, ⟨0x00400FFC, 0x1000⟩] 0x00400000#32).wf = false ∧
    (Config.mk [⟨0x00400000, 0x1000⟩, ⟨0x00401000, 0x1000⟩] 0x00400000#32).wf = true := by decide

theorem test_config_refuses_text_outside :
    (Config.mk [⟨0x00400000, 0x1000⟩] 0x00400004#32).textIsARegion = false ∧
    (Config.mk [⟨0x00400000, 0x1000⟩] 0x00400004#32).wf = false := by decide

/-! ### Decoding: words written out from the fields of 30_encoding R51 and the maps of R53 to R56, or given in
95_test_vectors section 2 -/

theorem test_decode_alu_register :
    decode 0b000000_00001_00010_00011_00000_100000#32 = .instr (.add 3 1 2) ∧
    decode 0b000000_00001_00010_00011_00000_100001#32 = .instr (.addu 3 1 2) ∧
    decode 0b000000_00001_00010_00011_00000_100010#32 = .instr (.sub 3 1 2) ∧
    decode 0b000000_00001_00010_00011_00000_100011#32 = .instr (.subu 3 1 2) ∧
    decode 0b000000_00001_00010_00011_00000_100100#32 = .instr (.and 3 1 2) ∧
    decode 0b000000_00001_00010_00011_00000_100101#32 = .instr (.or 3 1 2) ∧
    decode 0b000000_00001_00010_00011_00000_100110#32 = .instr (.xor 3 1 2) ∧
    decode 0b000000_00001_00010_00011_00000_100111#32 = .instr (.nor 3 1 2) ∧
    decode 0b000000_00001_00010_00011_00000_101010#32 = .instr (.slt 3 1 2) := by decide

theorem test_decode_shifts :
    decode 0b000000_00000_00010_00011_00100_000000#32 = .instr (.sll 3 2 4#5) ∧
    decode 0b000000_00000_00010_00011_00100_000010#32 = .instr (.srl 3 2 4#5) ∧
    decode 0b000000_11111_00010_00011_11111_000011#32 = .instr (.sra 3 2 31#5) := by decide

theorem test_decode_muldiv_hilo :
    decode 0b000000_00001_00010_00000_00000_011000#32 = .instr (.mult 1 2) ∧
    decode 0b000000_00001_00010_00000_00000_011001#32 = .instr (.multu 1 2) ∧
    decode 0b000000_00001_00010_00000_00000_011010#32 = .instr (.div 1 2) ∧
    decode 0b000000_00001_00010_11111_11111_011011#32 = .instr (.divu 1 2) ∧
    decode 0b000000_00000_00000_00011_00000_010000#32 = .instr (.mfhi 3) ∧
    decode 0b000000_00000_00000_00011_00000_010010#32 = .instr (.mflo 3) ∧
    decode 0b000000_00001_00000_00000_00000_010001#32 = .instr (.mthi 1) ∧
    decode 0b000000_00001_00000_00000_00000_010011#32 = .instr (.mtlo 1) := by decide

theorem test_decode_jump_register :
    decode 0b000000_11111_00000_00000_00000_001000#32 = .instr (.jr 31) ∧
    decode 0b000000_00100_00000_11111_00000_001001#32 = .instr (.jalr 31 4) := by decide

theorem test_decode_alu_immediate :
    decode 0b001000_00001_00010_1111111111111111#32 = .instr (.addi 2 1 0xFFFF#16) ∧
    decode 0b001001_00001_00010_1111111111111111#32 = .instr (.addiu 2 1 0xFFFF#16) ∧
    decode 0b001010_00001_00010_0000000000000001#32 = .instr (.slti 2 1 1#16) ∧
    decode 0b001100_00001_00010_1111111111111111#32 = .instr (.andi 2 1 0xFFFF#16) ∧
    decode 0b001101_00001_00010_1000000000000000#32 = .instr (.ori 2 1 0x8000#16) ∧
    decode 0b001110_00001_00010_1111111111111111#32 = .instr (.xori 2 1 0xFFFF#16) ∧
    decode 0b001111_11111_00010_1000000000000000#32 = .instr (.lui 2 0x8000#16) := by decide

theorem test_decode_load_store :
    decode 0b100000_01000_00001_0000000000000011#32 = .instr (.lb 1 8 3#16) ∧
    decode 0b100001_01000_00101_0000000000000010#32 = .instr (.lh 5 8 2#16) ∧
    decode 0b100011_01000_00001_1111111111111100#32 = .instr (.lw 1 8 0xFFFC#16) ∧
    decode 0b101000_01000_01001_0000000000000111#32 = .instr (.sb 9 8 7#16) ∧
    decode 0b101001_01000_01001_0000000000001000#32 = .instr (.sh 9 8 8#16) ∧
    decode 0b101011_01000_01001_0000000000010001#32 = .instr (.sw 9 8 0x11#16) := by decide

theorem test_decode_branch_jump_syscall :
    decode 0b000100_00001_00010_0000000000000011#32 = .instr (.beq 1 2 3#16) ∧
    decode 0b000101_00001_00010_1111111111111110#32 = .instr (.bne 1 2 0xFFFE#16) ∧
    decode 0b000110_00001_00000_0000000000000011#32 = .instr (.blez 1 3#16) ∧
    decode 0b000111_00001_11111_0000000000000011#32 = .instr (.bgtz 1 3#16) ∧
    decode 0b000001_00001_00000_0000000000000011#32 = .instr (.bltz 1 3#16) ∧
    decode 0b000001_00001_00001_0000000000000011#32 = .instr (.bgez 1 3#16) ∧
    decode 0b000010_00000100000000000000001000#32 = .instr (.j 0x0100008#26) ∧
    decode 0b000011_00000100000000000000001000#32 = .instr (.jal 0x0100008#26) ∧
    decode 0b000000_00010_01000_11010_00101_001100#32 = .instr .syscall := by decide

/-- The four words of 95_test_vectors section 2.1 that decode as `Unknown`. -/
theorem test_decode_unknown :
    decode 0x04310003#32 = .unknown ∧ decode 0x0022182B#32 = .unknown ∧ decode 0x91090000#32 = .unknown ∧
    decode 0xFFFFFFFF#32 = .unknown := by decide

/-- Bytes in memory order, the rest handed back, and too few bytes refused by name (20_memory R35, 30_encoding R50). -/
theorem test_decode_bytes :
    decodeBytes [0x20#8, 0x18#8, 0x22#8, 0x00#8, 0xFF#8] = .ok (.instr (.add 3 1 2), [0xFF#8]) ∧
    decodeBytes [0x20#8, 0x18#8, 0x22#8] = .error .truncated ∧
    decodeTableWord 32 0x00221820 = some (.add 3 1 2) ∧ decodeTableWord 32 0xFFFFFFFF = none := by decide

theorem test_encode_source_words :
    [encode (.addi 1 0 5#16), encode (.addi 2 0 3#16), encode (.add 3 1 2), encode .syscall] =
      [0x20010005#32, 0x20020003#32, 0x00221820#32, 0x0000000C#32] := by decide

/-! ### Register arithmetic and logic (95_test_vectors section 2.2) -/

theorem test_add : reg3 0x00221820#32 0x7FFFFFFF#32 1#32 3 = 0x80000000#32 ∧
    reg3 0x00210820#32 3#32 0#32 1 = 6#32 := by decide
theorem test_addu : reg3 0x00221821#32 0x7FFFFFFF#32 1#32 3 = 0x80000000#32 := by decide
theorem test_sub : reg3 0x00221822#32 5#32 7#32 3 = 0xFFFFFFFE#32 := by decide
theorem test_subu : reg3 0x00221823#32 0#32 1#32 3 = 0xFFFFFFFF#32 := by decide
theorem test_and : reg3 0x00221824#32 0xF0F0A5A5#32 0x0FF0FF00#32 3 = 0x00F0A500#32 := by decide
theorem test_or : reg3 0x00221825#32 0xF0F0A5A5#32 0x0FF0FF00#32 3 = 0xFFF0FFA5#32 := by decide
theorem test_xor : reg3 0x00221826#32 0xF0F0A5A5#32 0x0FF0FF00#32 3 = 0xFF005AA5#32 := by decide
theorem test_nor : reg3 0x00221827#32 0xF0F0A5A5#32 0x0FF0FF00#32 3 = 0x000F005A#32 := by decide
theorem test_slt : reg3 0x0022182A#32 0x80000000#32 0x7FFFFFFF#32 3 = 1#32 ∧
    reg3 0x0022182A#32 0x7FFFFFFF#32 0x80000000#32 3 = 0#32 := by decide

/-! ### Shifts (section 2.3) -/

theorem test_sll : reg3 0x00021900#32 0#32 0x12345678#32 3 = 0x23456780#32 ∧
    reg3 0x00021FC0#32 0#32 0x80000001#32 3 = 0x80000000#32 := by decide
theorem test_srl : reg3 0x00021902#32 0#32 0x80000001#32 3 = 0x08000000#32 ∧
    reg3 0x00021FC2#32 0#32 0x80000001#32 3 = 1#32 := by decide
theorem test_sra : reg3 0x00021903#32 0#32 0x80000001#32 3 = 0xF8000000#32 ∧
    reg3 0x00021FC3#32 0#32 0x80000001#32 3 = 0xFFFFFFFF#32 := by decide

/-! ### Multiply, divide, HI and LO (section 2.4) -/

theorem test_mult : hiLo 0x00220018#32 0xFFFFFFF9#32 2#32 = (0xFFFFFFFF#32, 0xFFFFFFF2#32) ∧
    hiLo 0x00220018#32 0x80000000#32 0xFFFFFFFF#32 = (0#32, 0x80000000#32) := by decide
theorem test_multu : hiLo 0x00220019#32 0xFFFFFFF9#32 2#32 = (1#32, 0xFFFFFFF2#32) ∧
    hiLo 0x00220019#32 0x80000000#32 0xFFFFFFFF#32 = (0x7FFFFFFF#32, 0x80000000#32) := by decide
theorem test_div : hiLo 0x0022001A#32 0xFFFFFFF9#32 2#32 = (0xFFFFFFFF#32, 0xFFFFFFFD#32) ∧
    hiLo 0x0022001A#32 7#32 0xFFFFFFFE#32 = (1#32, 0xFFFFFFFD#32) := by decide
theorem test_div_corners : hiLo 0x0022001A#32 0x80000000#32 0xFFFFFFFF#32 = (0#32, 0x80000000#32) ∧
    hiLo 0x0022001A#32 5#32 0#32 = (1#32, 2#32) := by decide
theorem test_divu : hiLo 0x0022001B#32 0xFFFFFFF9#32 0xFFFFFFFE#32 = (0xFFFFFFF9#32, 0#32) ∧
    hiLo 0x0022001B#32 5#32 0#32 = (1#32, 2#32) := by decide
theorem test_mfhi_mflo :
    (after ((start [0x00001810#32] [] []).hostInject ⟨.hi, 0xFFFFFFFF#32⟩)).x 3 = 0xFFFFFFFF#32 ∧
    (after ((start [0x00001812#32] [] []).hostInject ⟨.lo, 0xFFFFFFFD#32⟩)).x 3 = 0xFFFFFFFD#32 := by decide
theorem test_mthi_mtlo : hiLo 0x00200011#32 0x12345678#32 0#32 = (0x12345678#32, 2#32) ∧
    hiLo 0x00200013#32 0x12345678#32 0#32 = (1#32, 0x12345678#32) := by decide

/-! ### Jump register (section 2.5, with the target in register 1) -/

theorem test_jr : staged 0x00200008#32 0x00400102#32 0#32 = some 0x00400102#32 ∧
    (after (start [0x00200008#32] [(1, 0x00400100#32)] [])).cur.pc = 0x00400004#32 := by decide
theorem test_jalr : staged 0x00200809#32 0x00400100#32 0#32 = some 0x00400100#32 ∧
    reg3 0x00200809#32 0x00400100#32 0#32 1 = 0x00400008#32 ∧
    reg3 0x00200009#32 0x00400100#32 0#32 0 = 0x00400008#32 := by decide

/-! ### Immediates (section 2.6) -/

theorem test_addi : reg3 0x2022FFFF#32 0x80000000#32 0#32 2 = 0x7FFFFFFF#32 ∧
    reg3 0x20227FFF#32 0x7FFFFFFF#32 0#32 2 = 0x80007FFE#32 := by decide
theorem test_addiu : reg3 0x2422FFFF#32 0x12345678#32 0#32 2 = 0x12345677#32 := by decide
theorem test_andi : reg3 0x3022FFFF#32 0xFFFFFFFF#32 0#32 2 = 0x0000FFFF#32 := by decide
theorem test_ori : reg3 0x34228000#32 0x12345678#32 0#32 2 = 0x1234D678#32 := by decide
theorem test_xori : reg3 0x3822FFFF#32 0xFFFFFFFF#32 0#32 2 = 0xFFFF0000#32 := by decide
theorem test_slti : reg3 0x2822FFFF#32 0x80000000#32 0#32 2 = 1#32 ∧
    reg3 0x2822FFFF#32 0xFFFFFFFF#32 0#32 2 = 0#32 := by decide
theorem test_lui : reg3 0x3C028000#32 0xFFFFFFFF#32 0xFFFFFFFF#32 2 = 0x80000000#32 := by decide

/-! ### Loads (section 2.7) and region ends (section 2.9) -/

/-- The start of section 2.7, with one load word. -/
def loadStart (w : Word) : State :=
  start [w] [(8, dataBase)] [(dataBase, 0x80FF7F01#32), (dataBase + 4#32, 0x12345678#32)]

/-- The start of section 2.9, with one word. -/
def regionEnd (w : Word) : State :=
  start [w] [(1, 0x55555555#32), (2, 0x55555555#32), (3, 0x55555555#32), (8, 0x10010FFC#32), (9, 0xCAFEBABE#32)]
    [(0x10010FFC#32, 0x99887766#32)]

theorem test_lb : (after (loadStart 0x81040003#32)).x 4 = 0xFFFFFF80#32 ∧
    (after (loadStart 0x81020001#32)).x 2 = 0x0000007F#32 := by decide
theorem test_lh : (after (loadStart 0x85070001#32)).x 7 = 0xFFFFFF7F#32 ∧
    (after (loadStart 0x85050000#32)).x 5 = 0x00007F01#32 := by decide
theorem test_lw : (after (loadStart 0x8D0B0001#32)).x 11 = 0x7880FF7F#32 ∧
    (after (start [0x8D01FFFC#32] [(8, dataBase + 4#32)] [(dataBase, 0x80FF7F01#32)])).x 1 = 0x80FF7F01#32 := by decide

theorem test_lb_at_region_end :
    (after (regionEnd 0x81010000#32)).x 1 = 0x66#32 ∧
    (after (regionEnd 0x81020001#32)).x 2 = 0x55555555#32 ∧
    (after (regionEnd 0x81020001#32)).diag = .misalignedSpan := by decide
theorem test_lw_unmapped :
    (after (regionEnd 0x8D030004#32)).x 3 = 0#32 ∧ (after (regionEnd 0x8D030004#32)).diag = .none := by decide

/-! ### Stores (section 2.8) and region ends (section 2.9) -/

/-- The start of section 2.8, with one store word. -/
def storeStart (w : Word) : State :=
  start [w] [(8, dataBase), (9, 0xCAFEBABE#32)]
    [(dataBase, 0x11111111#32), (dataBase + 4#32, 0x22222222#32), (dataBase + 8#32, 0x33333333#32),
     (dataBase + 12#32, 0x44444444#32)]

theorem test_sb : (after (storeStart 0xA1090007#32)).hostReadWord (dataBase + 4#32) = .ok 0xBE222222#32 := by decide
theorem test_sh : (after (storeStart 0xA509000B#32)).hostReadWord (dataBase + 8#32) = .ok 0xBE333333#32 ∧
    (after (storeStart 0xA509000B#32)).hostReadWord (dataBase + 12#32) = .ok 0x444444BA#32 := by decide
theorem test_sw : (after (storeStart 0xAD090011#32)).hostReadWord (dataBase + 16#32) = .ok 0xFEBABE00#32 ∧
    (after (storeStart 0xAD090011#32)).hostReadWord (dataBase + 20#32) = .ok 0x000000CA#32 := by decide

theorem test_sw_at_region_end :
    (after (regionEnd 0xAD090002#32)).mem = (regionEnd 0xAD090002#32).mem ∧
    (after (regionEnd 0xAD090002#32)).diag = .misalignedSpan := by decide
theorem test_sb_span :
    (after (regionEnd 0xA1090003#32)).mem = (regionEnd 0xA1090003#32).mem ∧
    (after (regionEnd 0xA1090003#32)).diag = .misalignedSpan := by decide

/-- Storing the 0 of reset removes the entries: equal memories are equal data (log 3). -/
theorem test_memory_stays_canonical :
    ((start [] [] [(dataBase, 0x11223344#32)]).hostWriteWord dataBase 0#32).2 = State.reset ∧
    State.reset.mem.wf := by decide

/-! ### Branches and jumps (section 2.10) -/

theorem test_beq : staged 0x10220003#32 5#32 5#32 = some 0x00400010#32 ∧ staged 0x10220003#32 5#32 6#32 = none := by decide
theorem test_bne : staged 0x1422FFFE#32 5#32 6#32 = some 0x003FFFFC#32 ∧ staged 0x1422FFFE#32 5#32 5#32 = none := by decide
theorem test_blez : staged 0x18200003#32 0#32 0#32 = some 0x00400010#32 ∧ staged 0x18200003#32 1#32 0#32 = none := by decide
theorem test_bgtz : staged 0x1C200003#32 1#32 0#32 = some 0x00400010#32 ∧
    staged 0x1C200003#32 0x80000000#32 0#32 = none := by decide
theorem test_bltz : staged 0x04200003#32 0xFFFFFFFF#32 0#32 = some 0x00400010#32 ∧ staged 0x04200003#32 0#32 0#32 = none := by
  decide
theorem test_bgez : staged 0x04210003#32 0#32 0#32 = some 0x00400010#32 ∧
    staged 0x04210003#32 0x80000000#32 0#32 = none := by decide
theorem test_branch_target_limits :
    branchTarget 0x00400010#32 0x7FFF#16 = 0x00420010#32 ∧ branchTarget 0x00400010#32 0x8000#16 = 0x003E0014#32 := by decide
theorem test_j : staged 0x08100008#32 0#32 0#32 = some 0x00400020#32 ∧
    jumpTarget 0x0FFFFFFC#32 0x0100008#26 = 0x10400020#32 := by decide
theorem test_jal : staged 0x0C100008#32 0#32 0#32 = some 0x00400020#32 ∧
    reg3 0x0C100008#32 0#32 0#32 31 = 0x00400008#32 ∧ linkAddress 0xFFFFFFFC#32 = 4#32 := by decide

/-! ### SYSCALL, Unknown, the driver (sections 2.11 to 2.14) -/

theorem test_syscall :
    (after (start [0x0000000C#32] [(2, 0xA#32)] [])).run = .halted ∧
    (after (start [0x0000000C#32] [(2, 0xA#32)] [])).cur.pc = 0x00400004#32 ∧
    (after (start [0x0000000C#32] [(2, 3#32)] [])).run = .running := by decide
theorem test_unknown :
    (after (start [0xFFFFFFFF#32] [] [])).diag = .unknownOpcode ∧
    (after (start [0xFFFFFFFF#32] [] [])).cur.pc = 0x00400004#32 := by decide
theorem test_delay_slot :
    (after (after (start [0x10210003#32, 0x20420001#32] [] []))).x 2 = 1#32 ∧
    (after (after (start [0x10210003#32, 0x20420001#32] [] []))).cur.pc = 0x00400010#32 := by decide
theorem test_stop : after (start [0x20010005#32] [] []).hostStop = (start [0x20010005#32] [] []).hostStop := by decide
theorem test_placed_word_runs_from_reset : (after (State.reset.withFetchWord 32 0x20010005)).x 1 = 5#32 := by decide
theorem test_core : core.step = step ∧ core.reset = State.reset := ⟨rfl, rfl⟩

/-! ### Witnesses: for every claim with hypotheses, a state and operands that meet them together, one per clause, at the
boundary values of its range -/

/-- `s` with `PC` at `a`. -/
def atPc (s : State) (a : Word) : State :=
  { s with cur := { s.cur with pc := a }, nxt := { s.nxt with pc := a } }

/-- `s` with the pending target `a`. -/
def pending (s : State) (a : Word) : State :=
  { s with cur := { s.cur with bd := some a }, nxt := { s.nxt with bd := some a } }

theorem inv_of {s : State} (h : s.config.wf = true ∧ s.mem.wf ∧ s.mem.withinRegions s.config ∧ s.nxt = s.cur ∧
    s.exit = false) : s.Inv := ⟨h.1, h.2.1, h.2.2.1, h.2.2.2.1, h.2.2.2.2⟩

/-- DecodeInvertsEncode. -/
theorem witness_wellFormed : (Instr.jalr 0 31).wellFormed = true := rfl

/-- WordsOfAnInstruction: both sides of both implications, on a word with every ignored bit set. -/
theorem witness_ignored_bits : decode 0x03FFFFC8#32 = .instr (.jr 31) ∧
    0x03FFFFC8#32 &&& ~~~ ignoredBits (.jr 31) = encode (.jr 31) ∧
    0x03FFFFC8#32 &&& selectorMask (.jr 31) = selectorBits (.jr 31) := by decide

/-- UnknownExactlyOffTheMap: a word for each of the three clauses, next to a row of the map. -/
theorem witness_unknown_clauses :
    (opcodeOf 0x0022182B#32 = 0#6 ∧ (functOf 0x0022182B#32).toNat = 0x2B ∧ decode 0x0022182B#32 = .unknown) ∧
    (opcodeOf 0x04220003#32 = 1#6 ∧ (rtField 0x04220003#32).toNat = 2 ∧ decode 0x04220003#32 = .unknown) ∧
    ((opcodeOf 0xFFFFFFFF#32).toNat = 0x3F ∧ decode 0xFFFFFFFF#32 = .unknown) := by decide

/-- ZeroWordIsANoOperation: an unmapped `PC`. -/
theorem witness_unmapped_fetch : (atPc State.reset 0x20000000#32).cycleStarts ∧
    wordStatus Config.tc 0x20000000#32 = .unmapped ∧ (atPc State.reset 0x20000000#32).fetches 0x00000000#32 :=
  ⟨⟨rfl, by decide⟩, by decide, ⟨rfl, by decide⟩, by decide⟩

/-- Every `DecodesR` claim: each funct is some word's. -/
theorem witness_DecodesR : ∀ f : BitVec 6, opcodeOf (f.setWidth 32) = 0#6 ∧ functOf (f.setWidth 32) = f := by decide

/-- Every `DecodesOpcode` claim, and the two rows of opcode 1. -/
theorem witness_DecodesOpcode : (∀ op : BitVec 6, opcodeOf (op.setWidth 32 <<< 26) = op) ∧
    opcodeOf 0x04200003#32 = 1#6 ∧ rtField 0x04200003#32 = 0#5 ∧
    opcodeOf 0x04210003#32 = 1#6 ∧ rtField 0x04210003#32 = 1#5 := by decide

/-- SignedDivisionTruncates, UnsignedDivisionRoundsDown: a zero and a nonzero divisor. -/
theorem witness_divisor : State.reset.x 2 = 0#32 ∧ (start [] [(2, 0xFFFFFFFF#32)] []).x 2 ≠ 0#32 := by decide

/-- LoadsReadTheirBytes, StoresWriteTheirBytes (`LoadsAt`, `StoresAt`), SubwordAccesses, MemoryRoundTrip,
SpanOnlyInTheLastThreeBytes: each status at the ends of its
range, in a memory in canonical form. -/
theorem witness_statuses :
    wordStatus Config.tc 0x10010000#32 = .ok ∧ wordStatus Config.tc 0x10010FFC#32 = .ok ∧
    wordStatus Config.tc 0x10010FFD#32 = .span ∧ wordStatus Config.tc 0x10010FFF#32 = .span ∧
    wordStatus Config.tc 0x10011000#32 = .unmapped ∧ wordStatus Config.tc 0x1000FFFF#32 = .unmapped ∧
    (storeStart 0#32).mem.wf := by decide

/-- BranchesStageTheirTarget: for each of the six, a state where it is taken and one where it is not. -/
theorem witness_branch_conditions :
    (State.reset.x 1 = State.reset.x 2) ∧ ((start [] [(2, 1#32)] []).x 1 ≠ (start [] [(2, 1#32)] []).x 2) ∧
    ((start [] [(1, 1#32)] []).x 1).toInt > 0 ∧ (State.reset.x 1).toInt ≤ 0 ∧ (State.reset.x 1).toInt ≥ 0 ∧
    ((start [] [(1, 0xFFFFFFFF#32)] []).x 1).toInt < 0 := by decide

/-- SyscallSignalsExitOnly: both conditions. -/
theorem witness_syscall_conditions : (start [] [(2, 0xA#32)] []).x 2 = 0x0000000A#32 ∧ State.reset.x 2 ≠ 0x0000000A#32 := by
  decide

/-- SpanAndUnmappedAccessesCommitNothing: a span-faulted load, and a store to an unmapped address. -/
theorem witness_span_and_unmapped :
    ((regionEnd 0x81020001#32).executes (.lb 2 8 1#16) ∧
      accessAddress (regionEnd 0x81020001#32) (.lb 2 8 1#16) = some 0x10010FFD#32 ∧
      wordStatus Config.tc 0x10010FFD#32 = .span) ∧
    ((regionEnd 0xAD090004#32).executes (.sw 9 8 4#16) ∧
      accessAddress (regionEnd 0xAD090004#32) (.sw 9 8 4#16) = some 0x10011000#32 ∧
      wordStatus Config.tc 0x10011000#32 = .unmapped ∧ destination (.sw 9 8 4#16) = none) :=
  ⟨⟨executes_of (w := 0x81020001#32) (by decide), by decide, by decide⟩,
    executes_of (w := 0xAD090004#32) (by decide), by decide, by decide, rfl⟩

/-- UnknownWordCommitsNothing; DiagnosticsByCause, UNKNOWN_OPCODE. -/
theorem witness_executesUnknown : (start [0xFFFFFFFF#32] [] []).executesUnknown :=
  ⟨0xFFFFFFFF#32, ⟨⟨by decide, by decide⟩, by decide⟩, by decide⟩

/-- OnlyTheDestinationChanges: a cycle that changes register 1, and one that changes `LO`. -/
theorem witness_changes :
    ((start [0x20010005#32] [] []).run = .running ∧
      step (start [0x20010005#32] [] []) = .next (after (start [0x20010005#32] [] [])) ∧
      (after (start [0x20010005#32] [] [])).cur.reg 1 ≠ (start [0x20010005#32] [] []).cur.reg 1) ∧
    ((start [0x0022001A#32] [(1, 7#32), (2, 2#32)] []).run = .running ∧
      step (start [0x0022001A#32] [(1, 7#32), (2, 2#32)] []) = .next (after (start [0x0022001A#32] [(1, 7#32), (2, 2#32)] [])) ∧
      (after (start [0x0022001A#32] [(1, 7#32), (2, 2#32)] [])).cur.lo ≠ (start [0x0022001A#32] [(1, 7#32), (2, 2#32)] []).cur.lo) :=
  ⟨⟨by decide, step_eq_after (by decide), by decide⟩, by decide, step_eq_after (by decide), by decide⟩

/-- MemoryChangesOnlyByStores: a store that changes the last byte it is of. -/
theorem witness_memory_change :
    (storeStart 0xAD090011#32).mem.wf ∧ step (storeStart 0xAD090011#32) = .next (after (storeStart 0xAD090011#32)) ∧
    (after (storeStart 0xAD090011#32)).mem.byte 0x10010014 ≠ (storeStart 0xAD090011#32).mem.byte 0x10010014 :=
  ⟨by decide, step_eq_after (by decide), by decide⟩

/-- RegisterZeroIsOrdinary: each of the instructions, and a cycle that changes register 0. -/
theorem witness_register_zero :
    (start [0x20000005#32] [] []).executes (.addi 0 0 5#16) ∧ (start [0x00800009#32] [] []).executes (.jalr 0 4) ∧
    (start [0x00000000#32] [] []).executes (.sll 0 0 0#5) ∧
    ((loadStart 0x8D000000#32).executes (.lw 0 8 0#16) ∧
      readWord Config.tc (loadStart 0x8D000000#32).mem dataBase = .ok 0x80FF7F01#32) ∧
    ((loadStart 0x85000002#32).executes (.lh 0 8 2#16) ∧
      memRead Config.tc (loadStart 0x85000002#32).mem 16 (dataBase + 2#32) = .ok 0x80FF#16) ∧
    ((loadStart 0x81000003#32).executes (.lb 0 8 3#16) ∧
      memRead Config.tc (loadStart 0x81000003#32).mem 8 (dataBase + 3#32) = .ok 0x80#8) ∧
    (step (start [0x20000005#32] [] []) = .next (after (start [0x20000005#32] [] [])) ∧
      (after (start [0x20000005#32] [] [])).cur.reg 0 = 5#32) :=
  ⟨executes_of (w := 0x20000005#32) (by decide), executes_of (w := 0x00800009#32) (by decide),
    executes_of (w := 0#32) (by decide), ⟨executes_of (w := 0x8D000000#32) (by decide), by decide⟩,
    ⟨executes_of (w := 0x85000002#32) (by decide), by decide⟩, ⟨executes_of (w := 0x81000003#32) (by decide), by decide⟩,
    step_eq_after (by decide), by decide⟩

/-- DiagnosticsChangeNothing, DiagnosticsByCause: a running state for each of the three diagnostics and for none; the span
diagnostic from an access and from a fetch. -/
theorem witness_diagnostics :
    runs (start [0xFFFFFFFF#32] [] []) = true ∧ (after (start [0xFFFFFFFF#32] [] [])).diag = .unknownOpcode ∧
    runs (start [0x0020001A#32] [] []) = true ∧ (after (start [0x0020001A#32] [] [])).diag = .divideByZero ∧
    divisorOf (start [0x0020001A#32] [] []) (.div 1 0) = some 0#32 ∧
    runs (regionEnd 0x81020001#32) = true ∧ (after (regionEnd 0x81020001#32)).diag = .misalignedSpan := by decide

/-- DiagnosticsChangeNothing, its last clause: a load from an unmapped address. -/
theorem witness_unmapped_load :
    (regionEnd 0x8D030004#32).executes (.lw 3 8 4#16) ∧ runs (regionEnd 0x8D030004#32) = true ∧
    accessAddress (regionEnd 0x8D030004#32) (.lw 3 8 4#16) = some 0x10011000#32 :=
  ⟨executes_of (w := 0x8D030004#32) (by decide), by decide, by decide⟩

/-- DiagnosticsByCause, the fetch: by the constraints on the map a SPAN fetch needs an unaligned `PC` or a state whose map
breaks them, such as this one, whose region ends inside the word at `PC`. -/
theorem witness_span_fetch :
    (State.resetWith ⟨[⟨0x00400000, 2⟩], 0x00400000#32⟩).fetchedWord = none ∧
    runs (State.resetWith ⟨[⟨0x00400000, 2⟩], 0x00400000#32⟩) = true ∧
    (after (State.resetWith ⟨[⟨0x00400000, 2⟩], 0x00400000#32⟩)).diag = .misalignedSpan := by decide

/-- RegionIsTheUniqueOwner, ReadWordOutcomes, WriteWordOutcomes: an owner and none, at the region's edges, and both sides of the
span check. -/
theorem witness_regions :
    regionOf Config.tc 0x10010000#32 = some ⟨0x10010000, 0x1000⟩ ∧ regionOf Config.tc 0x10010FFF#32 = some ⟨0x10010000, 0x1000⟩ ∧
    regionOf Config.tc 0x10011000#32 = none ∧ regionOf Config.tc 0x1000FFFF#32 = none ∧
    readWord Config.tc State.reset.mem 0x10010FFD#32 = .span ∧ readWord Config.tc State.reset.mem 0x10010FFC#32 = .ok 0#32 ∧
    (writeWord Config.tc State.reset.mem 0x10010FFC#32 1#32).1 = .ok := by decide

/-- MemoryRoundTrip, the SB scenario of the source. -/
theorem witness_sb_scenario :
    (start [] [(8, dataBase), (9, 0xAB#32)] []).mem.wf ∧
    dataBase + 0x20#32 = effectiveAddress ((start [] [(8, dataBase), (9, 0xAB#32)] []).x 8) 0x20#16 ∧
    readWord Config.tc (start [] [(8, dataBase), (9, 0xAB#32)] []).mem (dataBase + 0x20#32) = .ok 0#32 ∧
    (start [] [(8, dataBase), (9, 0xAB#32)] []).x 9 = 0xAB#32 := by decide

/-- MixedWidthsAreLittleEndian: the written memory, and the bytes that section 2.9 of 95_test_vectors gives. -/
theorem witness_mixed_widths :
    State.reset.mem.wf ∧
    memWrite Config.tc State.reset.mem 32 dataBase 0x11223344#32 = (.ok, State.reset.mem.setWord 0x10010000 0x11223344#32) ∧
    wordStatus Config.tc (dataBase + 1#32) = .ok ∧ wordStatus Config.tc (dataBase + 2#32) = .ok ∧
    wordStatus Config.tc (dataBase + 3#32) = .ok ∧
    memRead Config.tc (State.reset.mem.setWord 0x10010000 0x11223344#32) 8 dataBase = .ok 0x44#8 := by decide

/-- StoreIsSeenByTheNextFetch: programs that store over their next word, SW the whole of it, and SB its byte at offset 2 only,
so that the other three are as before. -/
theorem witness_self_modification :
    (let s := start [0xAD090004#32] [(8, 0x00400000#32), (9, 0x20010005#32)] []
     s.executes (.sw 9 8 4#16) ∧ s.mem.wf ∧ s.sequencedPc = 0x00400004#32 ∧
     storeSpan s (.sw 9 8 4#16) = some (0x00400004#32, 4) ∧ storedWord s (.sw 9 8 4#16) = some 0x20010005#32 ∧
     (after s).fetchedWord = some 0x20010005#32) ∧
    (let s := start [0xA1090006#32, 0x11223344#32] [(8, 0x00400000#32), (9, 0xAB#32)] []
     s.executes (.sb 9 8 6#16) ∧ s.mem.wf ∧ s.sequencedPc = 0x00400004#32 ∧
     storeSpan s (.sb 9 8 6#16) = some (0x00400006#32, 1) ∧ storedWord s (.sb 9 8 6#16) = some 0xAB#32 ∧
     (after s).fetchedWord = some 0x11AB3344#32) ∧
    wordStatus Config.tc 0x00400004#32 = .ok ∧ wordStatus Config.tc 0x00400006#32 = .ok :=
  ⟨⟨executes_of (w := 0xAD090004#32) (by decide), by decide, by decide, by decide, by decide, by decide⟩,
    ⟨executes_of (w := 0xA1090006#32) (by decide), by decide, by decide, by decide, by decide, by decide⟩, by decide, by decide⟩

/-- OnlyAnUnalignedPcStops: an unaligned `PC`, an aligned one, a halted core. -/
theorem witness_alignment :
    (atPc State.reset 0x00400102#32).run = .running ∧ isAligned (atPc State.reset 0x00400102#32).pc = false ∧
    isAligned State.reset.pc = true ∧ State.reset.hostStop.run = .halted := by decide

/-- EveryCycleSequencesThePc, OnlyTransfersStageATarget, DelaySlotLaw: a branch from an empty slot that stages a target, and an
instruction that stages none. -/
theorem witness_sequencing :
    (start [0x10210003#32] [] []).cycleStarts ∧ (start [0x10210003#32] [] []).cur.bd = none ∧
    step (start [0x10210003#32] [] []) = .next (after (start [0x10210003#32] [] [])) ∧
    (after (start [0x10210003#32] [] [])).cur.bd = some 0x00400010#32 ∧
    (after (start [0x20010005#32] [] [])).cur.bd = none ∧ (after (start [0x20010005#32] [] [])).run = .running ∧
    isTransfer (.addi 1 0 5#16) = false :=
  ⟨⟨by decide, by decide⟩, by decide, step_eq_after (by decide), by decide, by decide, by decide, rfl⟩

/-- EveryCycleSequencesThePc, TransferInADelaySlot (95_test_vectors section 2.11): J in the delay slot of J. -/
theorem witness_transfer_in_delay_slot :
    (pending (start [0x08100010#32] [] []) 0x00400020#32).run = .running ∧
    (pending (start [0x08100010#32] [] []) 0x00400020#32).cur.bd = some 0x00400020#32 ∧
    step (pending (start [0x08100010#32] [] []) 0x00400020#32) = .next (after (pending (start [0x08100010#32] [] []) 0x00400020#32)) ∧
    (after (pending (start [0x08100010#32] [] []) 0x00400020#32)).cur.bd = some 0x00400040#32 ∧
    isAligned 0x00400020#32 = true :=
  ⟨by decide, by decide, step_eq_after (by decide), by decide, by decide⟩

/-- AlignmentIsLostOnlyByJumpRegister: JR with an aligned value and an aligned pending target. -/
theorem witness_aligned_jump :
    let s := pending (start [0x00200008#32] [(1, 0x00400100#32)] []) 0x00400020#32
    s.run = .running ∧ step s = .next (after s) ∧ (∀ a, s.cur.bd = some a → isAligned a = true) ∧
      ∀ i a, s.executes i → registerTarget s i = some a → isAligned a = true := by
  refine ⟨by decide, step_eq_after (by decide), ?_, ?_⟩
  · intro a h
    obtain rfl : (0x00400020#32 : Word) = a := Option.some.inj h
    decide
  · rintro i a ⟨w, hw, hd⟩ ht
    obtain rfl : (0x00200008#32 : Word) = w := Option.some.inj ((by decide : _ = some 0x00200008#32).symm.trans hw.2)
    obtain rfl : Instr.jr 1 = i := Decoded.instr.inj ((by decide : _ = Decoded.instr (.jr 1)).symm.trans hd)
    obtain rfl : (0x00400100#32 : Word) = a := Option.some.inj ((by decide : _ = some 0x00400100#32).symm.trans ht)
    decide

/-- UnalignedJumpFaultsAfterTheDelaySlot: JR and JALR with the value 0x00400102 of 95_test_vectors section 2.5, from an empty
slot, and JR in the delay slot of a transfer to an aligned address. -/
theorem witness_unaligned_jump :
    (let s := start [0x00200008#32] [(1, 0x00400102#32)] []
     s.executes (.jr 1) ∧ s.cur.bd = none ∧ registerTarget s (.jr 1) = some 0x00400102#32 ∧
     (after (after s)).run = .running) ∧
    (let s := start [0x0020F809#32] [(1, 0x00400102#32)] []
     s.executes (.jalr 31 1) ∧ s.cur.bd = none ∧ registerTarget s (.jalr 31 1) = some 0x00400102#32 ∧
     (after (after s)).run = .running) ∧
    (let s := pending (start [0x00200008#32] [(1, 0x00400102#32)] []) 0x00400020#32
     s.executes (.jr 1) ∧ s.cur.bd = some 0x00400020#32 ∧ registerTarget s (.jr 1) = some 0x00400102#32) ∧
    isAligned 0x00400102#32 = false ∧ isAligned 0x00400020#32 = true :=
  ⟨⟨executes_of (w := 0x00200008#32) (by decide), by decide, by decide, by decide⟩,
    ⟨executes_of (w := 0x0020F809#32) (by decide), by decide, by decide, by decide⟩,
    ⟨executes_of (w := 0x00200008#32) (by decide), by decide, by decide⟩, by decide, by decide⟩

/-- CycleDependsOnlyOnCurrentStateAndMemory: two states that differ in the counter only. -/
theorem witness_same_current :
    let s := start [0x20010005#32] [] []
    let u := { s with icount := 7#32 }
    s.run = .running ∧ u.run = .running ∧ u.cur = s.cur ∧ u.mem = s.mem ∧ u.config = s.config ∧ u ≠ s ∧ step s = .next (after s) :=
  ⟨by decide, by decide, rfl, rfl, rfl, by decide, step_eq_after (by decide)⟩

/-- StepRunsTheDecodedInstruction, EveryCycleCommitsAndCounts, HaltsExactlyOnExitSyscall: the exit SYSCALL. -/
theorem witness_exit :
    (start [0x0000000C#32] [(2, 0xA#32)] []).executes .syscall ∧
    (start [0x0000000C#32] [(2, 0xA#32)] []).x 2 = 0x0000000A#32 ∧
    step (start [0x0000000C#32] [(2, 0xA#32)] []) = .next (after (start [0x0000000C#32] [(2, 0xA#32)] [])) ∧
    (after (start [0x0000000C#32] [(2, 0xA#32)] [])).run = .halted :=
  ⟨executes_of (w := 0x0000000C#32) (by decide), by decide, step_eq_after (by decide), by decide⟩

/-- RunStopsEarlyWhenHalted: a run that halts, and one that does not. -/
theorem witness_runs :
    (start [0x0000000C#32] [(2, 0xA#32)] []).runFor 1 = .next (after (start [0x0000000C#32] [(2, 0xA#32)] [])) ∧
    (after (start [0x0000000C#32] [(2, 0xA#32)] [])).run = .halted ∧
    (start [0x20010005#32] [] []).runFor 1 = .next (after (start [0x20010005#32] [] [])) ∧
    (start [0x0000000C#32] [(2, 0xA#32)] []).completesIn (after (start [0x0000000C#32] [(2, 0xA#32)] [])) := by
  have one : ∀ s : State, s.run = .running → runs s = true → s.runFor 1 = .next (after s) := by
    intro s hr hs
    exact State.runUnder_of_step hr (step_eq_after hs) []
  exact ⟨one _ (by decide) (by decide), by decide, one _ (by decide) (by decide), 1, one _ (by decide) (by decide), by decide⟩

/-- A stop presented after step 1 of P1 (95_test_vectors section 2.14): the run under it, or run_to_completion, ends there. -/
theorem test_stop_ends_a_run :
    let s := start [0x20010005#32, 0x20020003#32] [] []
    let t := (after s).hostStop
    s.runUnder [false, true, false] = .next t ∧ s.completesUnder [false, true] t ∧
    t.run = .halted ∧ t.pc = 0x00400004#32 ∧ t.x 1 = 5#32 ∧ t.icount = 1#32 := by
  have one : (start [0x20010005#32, 0x20020003#32] [] []).runFor 1 = .next (after (start [0x20010005#32, 0x20020003#32] [] [])) :=
    State.runUnder_of_step (by decide) (step_eq_after (by decide)) []
  exact ⟨State.runUnder_stop_after one [false], State.completesUnder_stop_after one, rfl, by decide, by decide, by decide⟩

/-- HaltedIsLeftOnlyByReset, StopChangesOnlyTheRunState: a halted state, and both kinds of request. -/
theorem witness_halted : State.reset.hostStop.run = .halted ∧
    (Requests.mk false false [⟨.hi, 1#32⟩] [] true).reset = false ∧ (Requests.mk true true [] [] true).reset = true := by decide

/-- ResetValues: the last word of a region is mapped. -/
theorem witness_reset_read : wordStatus State.reset.config 0x00400FFC#32 = .ok := by decide

/-- InjectionWritesOneElement: another register than the one written. -/
theorem witness_other_register : (31 : Reg) ≠ 0 := by decide

/-- LoaderPlacesTheWords: two words at the text base, and the bytes before and after them. -/
theorem witness_loader :
    State.reset.Inv ∧ [0x20010005#32, 0x20020003#32].length < 2 ^ 30 ∧
    (∀ k, k < [0x20010005#32, 0x20020003#32].length →
      wordStatus Config.tc (Config.tc.textBegin + BitVec.ofNat 32 (4 * k)) = .ok) ∧
    (0x003FFFFF : Nat) < (Config.tc.textBegin + BitVec.ofNat 32 (4 * 0)).toNat ∧
    (Config.tc.textBegin + BitVec.ofNat 32 (4 * 1)).toNat + 4 ≤ 0x00400008 :=
  ⟨inv_of (by decide), by decide, by decide, by decide, by decide⟩

/-- BoundaryOrderOfRequests: a reset; and, without one, a stop and no stop, each with injections and a write, of which
`u` shows the effects. -/
theorem witness_requests :
    (Requests.mk true true [] [] true).reset = true ∧
    (let q : Requests := ⟨false, true, [⟨.lo, 1#32⟩, ⟨.gpr 2, 0xA#32⟩], [(dataBase, 7#32)], true⟩
     let u := State.reset.takeRequests q
     q.reset = false ∧ q.stop = true ∧ u.run = .halted ∧ u.cur.lo = 1#32 ∧ u.x 2 = 0xA#32 ∧
     u.hostReadWord dataBase = .ok 7#32) ∧
    (let q : Requests := ⟨false, false, [⟨.lo, 1#32⟩, ⟨.gpr 2, 0xA#32⟩], [(dataBase, 7#32)], true⟩
     let u := State.reset.takeRequests q
     q.reset = false ∧ q.stop = false ∧ u.run = .running ∧ u.cur.lo = 1#32 ∧ u.x 2 = 0xA#32 ∧
     u.hostReadWord dataBase = .ok 7#32) := by decide

/-- PlacedWordIsExecutedNext, StepKeepsTheInvariant, HostOperationsKeepTheInvariant: a state with the invariant, loaded memory
and a next step. -/
theorem witness_invariant :
    (storeStart 0xAD090011#32).Inv ∧ step (storeStart 0xAD090011#32) = .next (after (storeStart 0xAD090011#32)) ∧
    decode 0x20010005#32 = .instr (.addi 1 0 5#16) :=
  ⟨inv_of (by decide), step_eq_after (by decide), by decide⟩

/-- InvariantAtReset: a map that meets the constraints. -/
theorem witness_map : (Config.mk [⟨0xFFFFF000, 0x1000⟩] 0xFFFFF000#32).wf = true := by decide

end Sys2Proof.Tests
end

section
/-! PROOFS of the family 20_memory: `Region(a)` names the one owner of a byte address (R32), and the source's testable
properties of memory (R47). -/

namespace Sys2Proof.Machine

/-! ### Regions (20_memory R31, R32) -/

@[simp] theorem ownsAddress_iff {r : Region} {a : Nat} :
    ownsAddress r a = true ↔ r.base ≤ a ∧ a < r.base + r.size := by
  simp [ownsAddress]

theorem Region.disjoint_iff {r q : Region} :
    r.disjoint q = true ↔ r.base + r.size ≤ q.base ∨ q.base + q.size ≤ r.base := by
  simp [Region.disjoint]

theorem pairwise_disjoint_of_wf {c : Config} (h : c.wf = true) :
    c.regions.Pairwise fun r q => r.disjoint q = true := by
  simp only [Config.wf, Bool.and_eq_true] at h
  obtain ⟨⟨_, hdisj⟩, _⟩ := h
  exact of_decide_eq_true hdisj

/-- Two regions of the map that own an address in common are the same region (20_memory R31). -/
theorem owner_unique {c : Config} (h : c.wf = true) {r q : Region} (hr : r ∈ c.regions) (hq : q ∈ c.regions) {a : Nat}
    (hra : ownsAddress r a = true) (hqa : ownsAddress q a = true) : r = q := by
  by_contra hne
  have hsymm : Std.Symm fun r q : Region => r.disjoint q = true :=
    ⟨fun _ _ hrq => Region.disjoint_iff.mpr (Region.disjoint_iff.mp hrq).symm⟩
  have hdisj := Region.disjoint_iff.mp ((pairwise_disjoint_of_wf h).forall hr hq hne)
  rw [ownsAddress_iff] at hra hqa
  omega

theorem regionOf_eq_none_iff {c : Config} {a : Word} :
    regionOf c a = none ↔ ∀ r ∈ c.regions, ¬ ownsAddress r a.toNat = true :=
  List.find?_eq_none

/-- The region found is a member of the list and owns the address, whatever the map. -/
theorem owner_of_regionOf {c : Config} {a : Word} {r : Region} (h : regionOf c a = some r) :
    r ∈ c.regions ∧ ownsAddress r a.toNat = true :=
  ⟨List.mem_of_find?_eq_some h, List.find?_some (p := fun r => ownsAddress r a.toNat) h⟩

/-- In a map that meets the constraints the region found is the owner, wherever it stands in the list. -/
theorem regionOf_eq_some_iff {c : Config} (hc : c.wf = true) {a : Word} {r : Region} :
    regionOf c a = some r ↔ r ∈ c.regions ∧ ownsAddress r a.toNat = true := by
  refine ⟨owner_of_regionOf, fun ⟨hr, hra⟩ => ?_⟩
  cases hfound : regionOf c a with
  | none => exact absurd hra (regionOf_eq_none_iff.mp hfound r hr)
  | some q =>
    obtain ⟨hq, hqa⟩ := owner_of_regionOf hfound
    rw [owner_unique hc hr hq hra hqa]

/-- Settles O31: an owner is found because the search would else have failed, and it is the region asked for because
disjoint regions have no address in common. -/
theorem regionIsTheUniqueOwner : Obligations.RegionIsTheUniqueOwner := by
  intro c a hc
  constructor
  · intro r
    rw [regionOf_eq_some_iff hc, ownsAddress_iff]
  · simp only [regionOf_eq_none_iff, ownsAddress_iff]

/-! ### Read after write (20_memory R47) -/

/-- A word written where the status is OK is the word read. -/
theorem readWord_writeWord {c : Config} {m : Memory} {a : Word} (hm : m.wf) (v : Word) (h : wordStatus c a = .ok) :
    readWord c (writeWord c m a v).2 a = .ok v := by
  rw [writeWord_ok m v h, readWord_ok _ h, Memory.word_setWord hm]

/-- Only a read with status OK returns a value with that status, and the value is the word in memory. -/
theorem readWord_eq_ok_iff {c : Config} {m : Memory} {a w : Word} :
    readWord c m a = .ok w ↔ wordStatus c a = .ok ∧ m.word a.toNat = w := by
  cases h : wordStatus c a with
  | ok => simp [readWord_ok m h]
  | unmapped => simp [readWord_unmapped m h]
  | span => simp [readWord_span m h]

theorem exec_sb (rt rs : Reg) (imm : BitVec 16) (s : State) : exec (.sb rt rs imm) s = .next (s.store 8 rt rs imm) := rfl

/-- After a store where the status is OK, the word at its address is the merge of the old word and the register. -/
theorem readWord_store {s : State} (hm : s.mem.wf) (bits : Nat) (rt : Reg) {rs : Reg} {imm : BitVec 16} {w : Word}
    (h : readWord s.config s.mem (effectiveAddress (s.x rs) imm) = .ok w) :
    readWord (s.store bits rt rs imm).config (s.store bits rt rs imm).mem (effectiveAddress (s.x rs) imm) =
      .ok (w &&& ~~~(lowMask bits) ||| s.x rt &&& lowMask bits) := by
  obtain ⟨hok, hw⟩ := readWord_eq_ok_iff.mp h
  rw [State.store_ok bits rt hok, State.setMem_config, State.setMem_mem, readWord_ok _ hok, Memory.word_setWord hm, hw]

/-- Settles O35: each clause is a read after a word write, SB's being the write of the merged word. -/
theorem memoryRoundTrip : Obligations.MemoryRoundTrip := by
  intro s a v hm
  refine ⟨readWord_writeWord hm v, fun hun => ⟨readWord_unmapped s.mem hun, by rw [writeWord_unmapped s.mem v hun]⟩, ?_⟩
  rintro rt rs imm rfl hzero hrt
  refine ⟨s.store 8 rt rs imm, exec_sb rt rs imm s, ?_⟩
  have hmerge : (0x00000000#32 &&& ~~~(lowMask 8) ||| 0x000000AB#32 &&& lowMask 8) = 0x000000AB#32 := by decide
  rw [readWord_store hm 8 rt hzero, hrt, hmerge]

end Sys2Proof.Machine
end

section
/-! PROOFS of the family 40_cycle_driver: the sequencer's write to `next.PC` (R71), and determinism of the cycle (R88). -/

namespace Sys2Proof.Machine

/-! ### The sequencer (R71) -/

theorem State.sequencedPc_of_pending {s : State} {a : Word} (h : s.cur.bd = some a) : s.sequencedPc = a := by
  simp [State.sequencedPc, h]

theorem State.sequencedPc_of_empty {s : State} (h : s.cur.bd = none) : s.sequencedPc = s.cur.pc + 4#32 := by
  simp [State.sequencedPc, h]

/-- No instruction writes `next.PC` (R72). -/
theorem Effect.nxt_pc {i : Instr} {s t : State} (h : Effect i s t) : t.nxt.pc = s.nxt.pc := by
  cases h <;> rfl

/-- Only a transfer writes `next.BD` (R72). -/
theorem Effect.nxt_bd {i : Instr} {s t : State} (h : Effect i s t) : isTransfer i = true ∨ t.nxt.bd = s.nxt.bd := by
  cases h with
  | stages _ ht | links _ _ _ ht => exact .inl ht
  | _ => exact .inr rfl

/-- What a cycle leaves in `PC` and in the pending-branch slot. -/
theorem step_sequences {s t : State} (hr : s.run = .running) (h : step s = .next t) :
    t.cur.pc = s.sequencedPc ∧ (t.cur.bd = none ∨ ∃ i, s.executes i ∧ isTransfer i = true) := by
  obtain ⟨hh, -⟩ | ⟨-, -, rfl⟩ | ⟨-, rfl⟩ | ⟨i, u, hi, hu, rfl⟩ := step_cases h
  · simp [hr] at hh
  · simp
  · simp
  · have he := exec_effect hu
    refine ⟨by simp [he.nxt_pc], ?_⟩
    obtain ht | hbd := he.nxt_bd
    · exact .inr ⟨i, hi, ht⟩
    · exact .inl (by simp [hbd])

/-- Settles O41: the sequencer alone writes `PC`, and after it only a transfer writes the slot. -/
theorem everyCycleSequencesThePc : Obligations.EveryCycleSequencesThePc := by
  refine ⟨fun s => by simp, fun s t hr h => ?_⟩
  obtain ⟨hpc, hbd⟩ := step_sequences hr h
  refine ⟨fun a ha => hpc.trans (State.sequencedPc_of_pending ha), fun hn => ?_, fun hne => hbd.resolve_left hne⟩
  rw [hpc, State.sequencedPc_of_empty hn, BitVec.toNat_add]
  rfl

/-! ### Determinism (R88)

Once a cycle has seeded its next snapshot, states that agree on the current snapshot, memory, the parameters and `RUN` differ
in the counter only, and nothing before the commit reads or writes the counter. -/

/-- The state with another value of `ICOUNT`. -/
def State.withCount (s : State) (c : BitVec 32) : State := { s with icount := c }

/-- After seeding and sequencing, only the counter is left of what the two states did not share. -/
theorem State.prepare_eq_withCount {s u : State} (hcur : u.cur = s.cur) (hmem : u.mem = s.mem) (hconfig : u.config = s.config)
    (hrun : u.run = s.run) : u.prepare = s.prepare.withCount u.icount := by
  cases s; cases u; cases hcur; cases hmem; cases hconfig; cases hrun
  rfl

theorem State.load_withCount (s : State) (c : BitVec 32) (bits : Nat) (ext : BitVec bits → Word) (rt rs : Reg)
    (imm : BitVec 16) : (s.withCount c).load bits ext rt rs imm = (s.load bits ext rt rs imm).withCount c := by
  cases h : wordStatus s.config (effectiveAddress (s.x rs) imm) with
  | ok => rw [State.load_ok bits ext rt h]; exact State.load_ok (s := s.withCount c) bits ext rt h
  | unmapped => rw [State.load_unmapped bits ext rt h]; exact State.load_unmapped (s := s.withCount c) bits ext rt h
  | span => rw [State.load_span bits ext rt h]; exact State.load_span (s := s.withCount c) bits ext rt h

theorem State.store_withCount (s : State) (c : BitVec 32) (bits : Nat) (rt rs : Reg) (imm : BitVec 16) :
    (s.withCount c).store bits rt rs imm = (s.store bits rt rs imm).withCount c := by
  cases h : wordStatus s.config (effectiveAddress (s.x rs) imm) with
  | ok => rw [State.store_ok bits rt h]; exact State.store_ok (s := s.withCount c) bits rt h
  | unmapped => rw [State.store_unmapped bits rt h]; exact State.store_unmapped (s := s.withCount c) bits rt h
  | span => rw [State.store_span bits rt h]; exact State.store_span (s := s.withCount c) bits rt h

theorem State.branchIf_withCount (s : State) (c : BitVec 32) (taken : Bool) (imm : BitVec 16) :
    (s.withCount c).branchIf taken imm = (s.branchIf taken imm).withCount c := by
  cases taken <;> rfl

theorem State.divide_withCount (s : State) (c : BitVec 32) (d q r : Word) :
    (s.withCount c).divide d q r = (s.divide d q r).withCount c := by
  unfold State.divide; split <;> rfl

/-- Executing an instruction neither reads nor writes the counter. -/
theorem exec_withCount {i : Instr} {s t : State} (h : exec i s = .next t) (c : BitVec 32) :
    exec i (s.withCount c) = .next (t.withCount c) := by
  cases i <;> (simp only [exec] at h; injection h with h; subst h)
  case lb | lh | lw => exact congrArg Host.Outcome.next (State.load_withCount ..)
  case sb | sh | sw => exact congrArg Host.Outcome.next (State.store_withCount ..)
  case beq | bne | bgtz | blez | bgez | bltz => exact congrArg Host.Outcome.next (State.branchIf_withCount ..)
  case div | divu => exact congrArg Host.Outcome.next (State.divide_withCount ..)
  case syscall => exact congrArg Host.Outcome.next (apply_ite (State.withCount · c) (s.x 2 = exitCode) s.signalExit s).symm
  all_goals rfl

/-- Fetching, decoding and executing neither read nor write the counter, whatever the fetch gives. -/
theorem runFetched_withCount {s t : State} (h : runFetched s = .next t) (c : BitVec 32) :
    runFetched (s.withCount c) = .next (t.withCount c) := by
  cases hf : s.fetchedWord with
  | none =>
    rw [runFetched_of_span hf] at h
    cases h
    exact runFetched_of_span (s := s.withCount c) hf
  | some w =>
    rw [runFetched_of_fetch hf] at h
    rw [runFetched_of_fetch (s := s.withCount c) hf]
    cases hd : decode w with
    | unknown =>
      rw [runWord_of_unknown s hd] at h
      cases h
      exact runWord_of_unknown (s.withCount c) hd
    | instr i =>
      rw [runWord_of_instr s hd] at h
      rw [runWord_of_instr (s.withCount c) hd, exec_withCount h c]

/-- The cycle's end counts from the other value, and does nothing else with it. -/
theorem State.finish_withCount (s : State) (c : BitVec 32) : (s.withCount c).finish = s.finish.withCount (c + 1#32) :=
  (apply_ite (State.withCount · (c + 1#32)) (s.exit = true) { s.commit with run := .halted, exit := false } s.commit).symm

/-- A running core that answers a next state began its cycle and finished what the fetch led to. -/
theorem cycle_of_step {s t : State} (hr : s.run = .running) (h : step s = .next t) :
    s.cycleStarts ∧ ∃ p, runFetched s.prepare = .next p ∧ t = p.finish := by
  cases ha : isAligned s.pc with
  | false => rw [step_of_running hr, cycle_of_unaligned ha] at h; cases h
  | true =>
    rw [step_of_cycleStarts ⟨hr, ha⟩] at h
    exact ⟨⟨hr, ha⟩, finishOutcome_eq_next h⟩

/-- Settles O47: the two prepared states differ in the counter only, and so do the states their cycles finish. -/
theorem cycleDependsOnlyOnCurrentStateAndMemory : Obligations.CycleDependsOnlyOnCurrentStateAndMemory := by
  intro s u t hs hu hcur hmem hconfig h
  obtain ⟨⟨-, haligned⟩, p, hp, rfl⟩ := cycle_of_step hs h
  have hstarts : u.cycleStarts := ⟨hu, by rw [State.pc, hcur]; exact haligned⟩
  have hstep : step u = .next (p.finish.withCount (u.icount + 1#32)) := by
    rw [step_of_cycleStarts hstarts, State.prepare_eq_withCount hcur hmem hconfig (hu.trans hs.symm),
      runFetched_withCount hp, finishOutcome_next, State.finish_withCount]
  exact ⟨_, hstep, rfl, rfl, rfl, rfl⟩

end Sys2Proof.Machine
end

section
/-! PROOFS of the family 41_alu_register: ADD and ADDI are sums modulo 2^32 that write one register and trap nothing
(R90, R118). -/

namespace Sys2Proof.Machine

/-! ### The decoder's maps (30_encoding R52 to R54) -/

/-- A word with opcode 0 is decoded by the R-format map. -/
theorem decode_of_opcode_zero {w : Word} (h : opcodeOf w = 0#6) : decode w = decodeRFormat w := by
  simp [decode, h]

/-- An entry of the R-format map is what the whole decoder does with the words of its funct. -/
theorem decodesR_of_decodeRFormat {funct : BitVec 6} {mk : Word → Instr}
    (h : ∀ w, functOf w = funct → decodeRFormat w = .instr (mk w)) : DecodesR funct mk := by
  intro w hop hfunct
  rw [decode_of_opcode_zero hop, h w hfunct]

theorem decodesR_add : DecodesR 0x20#6 fun w => .add (rdOf w) (rsOf w) (rtOf w) :=
  decodesR_of_decodeRFormat fun w h => by simp [decodeRFormat, h]

theorem decodesOpcode_addi : DecodesOpcode 0x08#6 fun w => .addi (rtOf w) (rsOf w) (immOf w) :=
  fun w h => by simp [decode, h]

/-! ### A register write is the whole effect -/

theorem State.setX_driverKept (s : State) (rd : Reg) (v : Word) : DriverKept s (s.setX rd v) :=
  ⟨rfl, rfl, rfl, rfl, rfl⟩

theorem State.setX_writesGpr (s : State) (rd : Reg) (v : Word) : WritesGpr s rd v s.nxt.bd (s.setX rd v) where
  driver := s.setX_driverKept rd v
  result := by simp
  others := fun j hj => by simp [hj]
  hi := rfl
  lo := rfl
  bd := rfl
  mem := rfl
  diag := rfl
  exit := rfl

/-! ### ADD and ADDI -/

theorem exec_add (rd rs rt : Reg) (s : State) : exec (.add rd rs rt) s = .next (s.setX rd (s.x rs + s.x rt)) := rfl

theorem exec_addi (rt rs : Reg) (imm : BitVec 16) (s : State) :
    exec (.addi rt rs imm) s = .next (s.setX rt (s.x rs + sext16 imm)) := rfl

theorem exec_add_eq_exec_addu (rd rs rt : Reg) (s : State) : exec (.add rd rs rt) s = exec (.addu rd rs rt) s := rfl

theorem exec_addi_eq_exec_addiu (rt rs : Reg) (imm : BitVec 16) (s : State) :
    exec (.addi rt rs imm) s = exec (.addiu rt rs imm) s := rfl

/-- Sign extension keeps the immediate's signed value (30_encoding R57). -/
@[simp] theorem toInt_sext16 (imm : BitVec 16) : (sext16 imm).toInt = imm.toInt :=
  BitVec.toInt_signExtend_of_le (by decide)

/-- Adding a word is adding its signed value, modulo 2^32. -/
theorem toNat_add_eq_add_toInt (a b : Word) : ((a + b).toNat : Int) = (a.toNat + b.toInt) % 2 ^ 32 := by
  have hmod : b.toInt ≡ b.toNat [ZMOD 2 ^ 32] := by
    rw [BitVec.toInt_eq_toNat_bmod]
    exact Int.bmod_emod
  rw [BitVec.toNat_add, Int.natCast_emod, Nat.cast_add]
  exact (hmod.add_left a.toNat).symm

/-- Settles O6: each instruction is one register write of a 32-bit sum, and the immediate's word has the immediate's
signed value. -/
theorem addAndAddImmediateWrapWithoutTrap : Obligations.AddAndAddImmediateWrapWithoutTrap := by
  refine ⟨decodesR_add, decodesOpcode_addi, fun rd rs rt s => ?_, fun rt rs imm s => ?_⟩
  · exact ⟨exec_add_eq_exec_addu rd rs rt s, s.x rs + s.x rt, BitVec.toNat_add _ _, _, exec_add rd rs rt s,
      s.setX_writesGpr rd _⟩
  · have hsum : ((s.x rs + sext16 imm).toNat : Int) = ((s.x rs).toNat + imm.toInt) % 2 ^ 32 := by
      rw [toNat_add_eq_add_toInt, toInt_sext16]
    exact ⟨exec_addi_eq_exec_addiu rt rs imm s, s.x rs + sext16 imm, hsum, _, exec_addi rt rs imm s, s.setX_writesGpr rt _⟩

end Sys2Proof.Machine
end

section
/-! PROOFS of the family 47_branch_jump: J and JAL stage the target of their field in the delay slot's segment, and JAL links
(R143, R144). -/

namespace Sys2Proof.Machine

/-! ### The jump target (R143) -/

/-- The shifted field leaves the segment's four bits to the delay slot's address. -/
theorem extractLsb'_shiftedField_high (target : BitVec 26) : (target.setWidth 32 <<< 2).extractLsb' 28 4 = 0#4 := by
  ext i hi
  have hout : target.getLsbD (28 + i - 2) = false := BitVec.getLsbD_of_ge target _ (by omega)
  simp [hout]

/-- The shift by two loses no bit of the field. -/
theorem extractLsb'_shiftedField_mid (target : BitVec 26) : (target.setWidth 32 <<< 2).extractLsb' 2 26 = target := by
  ext i hi
  have hrange : 2 + i < 32 ∧ 1 < 2 + i ∧ i < 32 := by omega
  simp [hrange, BitVec.getLsbD_eq_getElem hi]

/-- The mask keeps the sum's top four bits, where the shifted field has none, and clears the bits the field fills; the two bits
below are those of an aligned address. -/
theorem isJumpTarget_jumpTarget (pc : Word) (target : BitVec 26) : IsJumpTarget pc target (jumpTarget pc target) := by
  have maskHigh : (0xF0000000#32).extractLsb' 28 4 = BitVec.allOnes 4 := rfl
  have maskMid : (0xF0000000#32).extractLsb' 2 26 = 0#26 := rfl
  refine ⟨?_, ?_, of_decide_eq_true (isAligned_jumpTarget pc target)⟩
  · rw [jumpTarget, BitVec.extractLsb'_or, BitVec.extractLsb'_and, maskHigh, extractLsb'_shiftedField_high,
      BitVec.and_allOnes, BitVec.or_zero]
  · rw [jumpTarget, BitVec.extractLsb'_or, BitVec.extractLsb'_and, maskMid, extractLsb'_shiftedField_mid,
      BitVec.and_zero, BitVec.zero_or]

/-- The link is the address after the delay slot, modulo 2^32 (R144). -/
theorem toNat_linkAddress (pc : Word) : (linkAddress pc).toNat = (pc.toNat + 8) % 2 ^ 32 :=
  BitVec.toNat_add pc 8#32

/-! ### Staging a target, and staging with a link, are the whole effect -/

theorem State.stage_writesNoGpr (s : State) (a : Word) :
    WritesNoGpr s s.nxt.hi s.nxt.lo (some a) s.diag (s.stage a) where
  driver := ⟨rfl, rfl, rfl, rfl, rfl⟩
  gprs := fun _ => rfl
  hi := rfl
  lo := rfl
  bd := rfl
  mem := rfl
  diag := rfl
  exit := rfl

theorem State.stage_setX_writesGpr (s : State) (a : Word) (rd : Reg) (v : Word) :
    WritesGpr s rd v (some a) ((s.stage a).setX rd v) where
  driver := ⟨rfl, rfl, rfl, rfl, rfl⟩
  result := ((s.stage a).setX_writesGpr rd v).result
  others := ((s.stage a).setX_writesGpr rd v).others
  hi := rfl
  lo := rfl
  bd := rfl
  mem := rfl
  diag := rfl
  exit := rfl

/-! ### J and JAL -/

theorem decodesOpcode_j : DecodesOpcode 0x02#6 fun w => .j (targetOf w) :=
  fun w h => by simp [decode, h]

theorem decodesOpcode_jal : DecodesOpcode 0x03#6 fun w => .jal (targetOf w) :=
  fun w h => by simp [decode, h]

theorem exec_j (target : BitVec 26) (s : State) : exec (.j target) s = .next (s.stage (jumpTarget s.pc target)) := rfl

theorem exec_jal (target : BitVec 26) (s : State) :
    exec (.jal target) s = .next ((s.stage (jumpTarget s.pc target)).setX 31 (linkAddress s.pc)) := rfl

/-- Settles O22: both instructions stage the same target, made of the three parts R143 names, and JAL's one register write is
the link. -/
theorem jumpsStageTheirTarget : Obligations.JumpsStageTheirTarget := by
  refine ⟨decodesOpcode_j, decodesOpcode_jal, fun target s => ?_⟩
  exact ⟨jumpTarget s.pc target, linkAddress s.pc, isJumpTarget_jumpTarget s.pc target, toNat_linkAddress s.pc,
    ⟨_, exec_j target s, s.stage_writesNoGpr _⟩, ⟨_, exec_jal target s, s.stage_setX_writesGpr _ 31 _⟩⟩

end Sys2Proof.Machine
end

section
/-! PROOFS of the family 48_syscall_unknown: SYSCALL's one effect is the exit signal (R146), and a cycle that executes an
`Unknown` word does nothing but report it (R147). -/

namespace Sys2Proof.Machine

/-! ### A cycle that only reports -/

/-- Where the execute phase does nothing but report, the cycle commits nothing but the sequenced `PC` and the count. -/
theorem State.finish_report_prepare_commitsNothing (s : State) (d : Diag) :
    CommitsNothing s d (s.prepare.report d).finish := by
  constructor <;> simp

/-! ### `Unknown` (R147) -/

theorem step_of_executesUnknown {s : State} (h : s.executesUnknown) :
    step s = .next (s.prepare.report .unknownOpcode).finish := by
  obtain ⟨w, ⟨hstarts, hfetched⟩, hdecoded⟩ := h
  have hprepared : s.prepare.fetchedWord = some w := s.fetchedWord_prepare.trans hfetched
  rw [step_of_cycleStarts hstarts, runFetched_of_fetch hprepared, runWord_of_unknown _ hdecoded, finishOutcome_next]

/-- Settles O24: the execute phase of such a cycle is the report alone. -/
theorem unknownWordCommitsNothing : Obligations.UnknownWordCommitsNothing := fun s h =>
  ⟨_, step_of_executesUnknown h, s.finish_report_prepare_commitsNothing .unknownOpcode⟩

/-! ### SYSCALL (R146) -/

theorem decodesR_syscall : DecodesR 0x0C#6 fun _ => .syscall :=
  decodesR_of_decodeRFormat fun w h => by simp [decodeRFormat, h]

theorem exec_syscall_of_exitCode {s : State} (h : s.x 2 = exitCode) : exec .syscall s = .next s.signalExit :=
  congrArg Host.Outcome.next (if_pos h)

theorem exec_syscall_of_ne_exitCode {s : State} (h : s.x 2 ≠ exitCode) : exec .syscall s = .next s :=
  congrArg Host.Outcome.next (if_neg h)

/-- Settles O23: funct 0x0C alone selects SYSCALL, and its two cases are told apart by the whole of register 2. -/
theorem syscallSignalsExitOnly : Obligations.SyscallSignalsExitOnly := by
  refine ⟨decodesR_syscall, fun s => ?_⟩
  by_cases h : s.x 2 = exitCode
  · exact ⟨s.signalExit, exec_syscall_of_exitCode h, fun _ => rfl, fun hne => absurd h hne⟩
  · exact ⟨s, exec_syscall_of_ne_exitCode h, fun heq => absurd heq h, fun _ => rfl⟩

end Sys2Proof.Machine
end

section
/-! PROOFS of the family 60_exceptions: a diagnostic is a label on a normal cycle, whose execute phase does nothing else
(R150). -/

namespace Sys2Proof.Machine

/-! ### What can report (R151) -/

/-- Only a division by zero and a SPAN access change `DIAG`, and then the report is the whole effect. -/
theorem Effect.diag_cases {i : Instr} {s t : State} (h : Effect i s t) :
    t.diag = s.diag ∨ (divisorOf s i = some 0#32 ∧ t = s.report .divideByZero) ∨
    ∃ a, accessAddress s i = some a ∧ wordStatus s.config a = .span ∧ t = s.report .misalignedSpan := by
  cases h with
  | divideByZero _ hd => exact .inr (.inl ⟨hd, rfl⟩)
  | span a ha hs => exact .inr (.inr ⟨a, ha, hs, rfl⟩)
  | _ => exact .inl rfl

/-- A load or store is no division. -/
theorem divisorOf_eq_none_of_access {i : Instr} {s : State} {a : Word} (h : accessAddress s i = some a) :
    divisorOf s i = none := by
  cases i
  case lb | lh | lw | sb | sh | sw => rfl
  all_goals cases h

/-- An access to an unmapped address reports nothing (R152). -/
theorem Effect.diag_of_unmapped {i : Instr} {s t : State} {a : Word} (h : Effect i s t) (ha : accessAddress s i = some a)
    (hs : wordStatus s.config a = .unmapped) : t.diag = s.diag := by
  obtain hkept | ⟨hd, -⟩ | ⟨b, hb, hspan, -⟩ := h.diag_cases
  · exact hkept
  · rw [divisorOf_eq_none_of_access ha] at hd
    cases hd
  · obtain rfl : a = b := Option.some.inj (ha.symm.trans hb)
    rw [hs] at hspan
    cases hspan

/-! ### The cycle around it (40_cycle_driver R70) -/

/-- The address of an access is formed from the current snapshot, which seeding and sequencing leave alone. -/
@[simp] theorem accessAddress_prepare (s : State) (i : Instr) : accessAddress s.prepare i = accessAddress s i := by
  cases i <;> rfl

/-- A step that executes an instruction finishes one of its effects on the prepared state. -/
theorem effect_of_step {i : Instr} {s t : State} (hi : s.executes i) (h : step s = .next t) :
    ∃ u, Effect i s.prepare u ∧ t = u.finish := by
  obtain ⟨w, ⟨hstarts, hfetched⟩, hdecoded⟩ := hi
  have hprepared : s.prepare.fetchedWord = some w := s.fetchedWord_prepare.trans hfetched
  rw [step_of_cycleStarts hstarts, runFetched_of_fetch hprepared, runWord_of_instr _ hdecoded] at h
  obtain ⟨u, hu, rfl⟩ := finishOutcome_eq_next h
  exact ⟨u, exec_effect hu, rfl⟩

/-- A cycle reports nothing, or its execute phase does nothing but report. -/
theorem step_reports {s t : State} (hr : s.run = .running) (h : step s = .next t) :
    t.diag = .none ∨ ∃ d, t = (s.prepare.report d).finish := by
  obtain ⟨hh, -⟩ | ⟨-, -, rfl⟩ | ⟨-, rfl⟩ | ⟨i, u, -, hu, rfl⟩ := step_cases h
  · simp [hr] at hh
  · exact .inr ⟨_, rfl⟩
  · exact .inr ⟨_, rfl⟩
  · obtain hkept | ⟨-, rfl⟩ | ⟨-, -, -, rfl⟩ := (exec_effect hu).diag_cases
    · exact .inl (u.finish_diag.trans hkept)
    · exact .inr ⟨_, rfl⟩
    · exact .inr ⟨_, rfl⟩

/-- Settles O29: a cycle that reports has the report as its whole execute phase, and an unmapped access is no cause. -/
theorem diagnosticsChangeNothing : Obligations.DiagnosticsChangeNothing := by
  intro s t hr h
  refine ⟨(step_sequences hr h).1, fun hreported => ?_, fun i a hi ha hs => ?_⟩
  · obtain hnone | ⟨d, rfl⟩ := step_reports hr h
    · exact absurd hnone hreported
    · simpa using s.finish_report_prepare_commitsNothing d
  · obtain ⟨u, hu, rfl⟩ := effect_of_step hi h
    exact u.finish_diag.trans (hu.diag_of_unmapped ((accessAddress_prepare s i).trans ha) hs)

end Sys2Proof.Machine
end

section
/-! PROOFS of the encoding (30_encoding): the decoder's maps row by row (R53 to R56), that they invert the encoder, which words
decode to an instruction (R59), and which to `Unknown` (R58). -/

namespace Sys2Proof.Machine

/-! ### The rows of the R-format map (R53) -/

theorem decodesR_addu : DecodesR 0x21#6 fun w => .addu (rdOf w) (rsOf w) (rtOf w) :=
  decodesR_of_decodeRFormat fun w h => by simp [decodeRFormat, h]
theorem decodesR_sub : DecodesR 0x22#6 fun w => .sub (rdOf w) (rsOf w) (rtOf w) :=
  decodesR_of_decodeRFormat fun w h => by simp [decodeRFormat, h]
theorem decodesR_subu : DecodesR 0x23#6 fun w => .subu (rdOf w) (rsOf w) (rtOf w) :=
  decodesR_of_decodeRFormat fun w h => by simp [decodeRFormat, h]
theorem decodesR_and : DecodesR 0x24#6 fun w => .and (rdOf w) (rsOf w) (rtOf w) :=
  decodesR_of_decodeRFormat fun w h => by simp [decodeRFormat, h]
theorem decodesR_or : DecodesR 0x25#6 fun w => .or (rdOf w) (rsOf w) (rtOf w) :=
  decodesR_of_decodeRFormat fun w h => by simp [decodeRFormat, h]
theorem decodesR_nor : DecodesR 0x27#6 fun w => .nor (rdOf w) (rsOf w) (rtOf w) :=
  decodesR_of_decodeRFormat fun w h => by simp [decodeRFormat, h]
theorem decodesR_xor : DecodesR 0x26#6 fun w => .xor (rdOf w) (rsOf w) (rtOf w) :=
  decodesR_of_decodeRFormat fun w h => by simp [decodeRFormat, h]
theorem decodesR_slt : DecodesR 0x2A#6 fun w => .slt (rdOf w) (rsOf w) (rtOf w) :=
  decodesR_of_decodeRFormat fun w h => by simp [decodeRFormat, h]
theorem decodesR_sll : DecodesR 0x00#6 fun w => .sll (rdOf w) (rtOf w) (shamtOf w) :=
  decodesR_of_decodeRFormat fun w h => by simp [decodeRFormat, h]
theorem decodesR_srl : DecodesR 0x02#6 fun w => .srl (rdOf w) (rtOf w) (shamtOf w) :=
  decodesR_of_decodeRFormat fun w h => by simp [decodeRFormat, h]
theorem decodesR_sra : DecodesR 0x03#6 fun w => .sra (rdOf w) (rtOf w) (shamtOf w) :=
  decodesR_of_decodeRFormat fun w h => by simp [decodeRFormat, h]
theorem decodesR_mult : DecodesR 0x18#6 fun w => .mult (rsOf w) (rtOf w) :=
  decodesR_of_decodeRFormat fun w h => by simp [decodeRFormat, h]
theorem decodesR_multu : DecodesR 0x19#6 fun w => .multu (rsOf w) (rtOf w) :=
  decodesR_of_decodeRFormat fun w h => by simp [decodeRFormat, h]
theorem decodesR_div : DecodesR 0x1A#6 fun w => .div (rsOf w) (rtOf w) :=
  decodesR_of_decodeRFormat fun w h => by simp [decodeRFormat, h]
theorem decodesR_divu : DecodesR 0x1B#6 fun w => .divu (rsOf w) (rtOf w) :=
  decodesR_of_decodeRFormat fun w h => by simp [decodeRFormat, h]
theorem decodesR_mfhi : DecodesR 0x10#6 fun w => .mfhi (rdOf w) :=
  decodesR_of_decodeRFormat fun w h => by simp [decodeRFormat, h]
theorem decodesR_mflo : DecodesR 0x12#6 fun w => .mflo (rdOf w) :=
  decodesR_of_decodeRFormat fun w h => by simp [decodeRFormat, h]
theorem decodesR_mthi : DecodesR 0x11#6 fun w => .mthi (rsOf w) :=
  decodesR_of_decodeRFormat fun w h => by simp [decodeRFormat, h]
theorem decodesR_mtlo : DecodesR 0x13#6 fun w => .mtlo (rsOf w) :=
  decodesR_of_decodeRFormat fun w h => by simp [decodeRFormat, h]
theorem decodesR_jr : DecodesR 0x08#6 fun w => .jr (rsOf w) :=
  decodesR_of_decodeRFormat fun w h => by simp [decodeRFormat, h]
theorem decodesR_jalr : DecodesR 0x09#6 fun w => .jalr (rdOf w) (rsOf w) :=
  decodesR_of_decodeRFormat fun w h => by simp [decodeRFormat, h]

/-! ### The rows of the opcode map (R54) and of opcode 1 (R55) -/

theorem decodesOpcode_addiu : DecodesOpcode 0x09#6 fun w => .addiu (rtOf w) (rsOf w) (immOf w) :=
  fun w h => by simp [decode, h]
theorem decodesOpcode_andi : DecodesOpcode 0x0C#6 fun w => .andi (rtOf w) (rsOf w) (immOf w) :=
  fun w h => by simp [decode, h]
theorem decodesOpcode_ori : DecodesOpcode 0x0D#6 fun w => .ori (rtOf w) (rsOf w) (immOf w) :=
  fun w h => by simp [decode, h]
theorem decodesOpcode_xori : DecodesOpcode 0x0E#6 fun w => .xori (rtOf w) (rsOf w) (immOf w) :=
  fun w h => by simp [decode, h]
theorem decodesOpcode_slti : DecodesOpcode 0x0A#6 fun w => .slti (rtOf w) (rsOf w) (immOf w) :=
  fun w h => by simp [decode, h]
theorem decodesOpcode_lui : DecodesOpcode 0x0F#6 fun w => .lui (rtOf w) (immOf w) :=
  fun w h => by simp [decode, h]
theorem decodesOpcode_lb : DecodesOpcode 0x20#6 fun w => .lb (rtOf w) (rsOf w) (immOf w) :=
  fun w h => by simp [decode, h]
theorem decodesOpcode_lh : DecodesOpcode 0x21#6 fun w => .lh (rtOf w) (rsOf w) (immOf w) :=
  fun w h => by simp [decode, h]
theorem decodesOpcode_lw : DecodesOpcode 0x23#6 fun w => .lw (rtOf w) (rsOf w) (immOf w) :=
  fun w h => by simp [decode, h]
theorem decodesOpcode_sb : DecodesOpcode 0x28#6 fun w => .sb (rtOf w) (rsOf w) (immOf w) :=
  fun w h => by simp [decode, h]
theorem decodesOpcode_sh : DecodesOpcode 0x29#6 fun w => .sh (rtOf w) (rsOf w) (immOf w) :=
  fun w h => by simp [decode, h]
theorem decodesOpcode_sw : DecodesOpcode 0x2B#6 fun w => .sw (rtOf w) (rsOf w) (immOf w) :=
  fun w h => by simp [decode, h]
theorem decodesOpcode_beq : DecodesOpcode 0x04#6 fun w => .beq (rsOf w) (rtOf w) (immOf w) :=
  fun w h => by simp [decode, h]
theorem decodesOpcode_bne : DecodesOpcode 0x05#6 fun w => .bne (rsOf w) (rtOf w) (immOf w) :=
  fun w h => by simp [decode, h]
theorem decodesOpcode_bgtz : DecodesOpcode 0x07#6 fun w => .bgtz (rsOf w) (immOf w) :=
  fun w h => by simp [decode, h]
theorem decodesOpcode_blez : DecodesOpcode 0x06#6 fun w => .blez (rsOf w) (immOf w) :=
  fun w h => by simp [decode, h]

/-- A word with opcode 1 is decoded by the selector map. -/
theorem decode_of_opcode_one {w : Word} (h : opcodeOf w = 1#6) : decode w = decodeOpcodeOne w := by
  simp [decode, h]

theorem decode_bgez {w : Word} (hop : opcodeOf w = 1#6) (hrt : rtField w = 1#5) :
    decode w = .instr (.bgez (rsOf w) (immOf w)) := by
  rw [decode_of_opcode_one hop]; simp [decodeOpcodeOne, hrt]

theorem decode_bltz {w : Word} (hop : opcodeOf w = 1#6) (hrt : rtField w = 0#5) :
    decode w = .instr (.bltz (rsOf w) (immOf w)) := by
  rw [decode_of_opcode_one hop]; simp [decodeOpcodeOne, hrt]

/-! ### `Unknown` (R58) -/

theorem decodeRFormat_eq_unknown_iff {w : Word} : decodeRFormat w = .unknown ↔
    (functOf w).toNat ∉ [0x00, 0x02, 0x03, 0x08, 0x09, 0x0C, 0x10, 0x11, 0x12, 0x13, 0x18, 0x19, 0x1A,
      0x1B, 0x20, 0x21, 0x22, 0x23, 0x24, 0x25, 0x26, 0x27, 0x2A] := by
  unfold decodeRFormat
  split
  case h_24 => simp_all [← BitVec.toNat_inj]
  all_goals rename_i h; simp [h]

theorem decodeOpcodeOne_eq_unknown_iff {w : Word} :
    decodeOpcodeOne w = .unknown ↔ (rtField w).toNat ∉ [0, 1] := by
  unfold decodeOpcodeOne
  split
  case h_3 => simp_all [← BitVec.toNat_inj]
  all_goals rename_i h; simp [h]

/-- Settles O4: each row of the opcode map either names an instruction or hands the word to one of the two sub-maps. -/
theorem unknownExactlyOffTheMap : Obligations.UnknownExactlyOffTheMap := by
  intro w
  unfold decode
  split
  case h_1 h => rw [decodeRFormat_eq_unknown_iff]; simp [h]
  case h_2 h => rw [decodeOpcodeOne_eq_unknown_iff]; simp [h]
  case h_22 => simp_all [← BitVec.toNat_inj]; omega
  all_goals rename_i h; simp [h]

/-! ### Decoding inverts encoding -/

theorem decode_encodeR (rs rt rd sh : BitVec 5) (f : BitVec 6) :
    decode (encodeR rs rt rd sh f) = decodeRFormat (encodeR rs rt rd sh f) :=
  decode_of_opcode_zero (opcodeOf_encodeR rs rt rd sh f)

theorem decode_encode (i : Instr) : decode (encode i) = .instr i := by
  cases i
  case add | addu | sub | subu | and | or | nor | xor | slt | mult | multu | div | divu | mfhi | mflo | mthi | mtlo | jr | jalr
      | syscall =>
    simp [encode, encodeRdRsRt, decode_encodeR, decodeRFormat, rsOf, rtOf, rdOf]
  case sll | srl | sra => simp [encode, encodeShift, decode_encodeR, decodeRFormat, rtOf, rdOf]
  case bgez | bltz => simp [encode, encodeRtRsImm, decode, decodeOpcodeOne, rsOf]
  case j | jal => simp [encode, decode]
  all_goals simp [encode, encodeRtRsImm, decode, rsOf, rtOf]

/-- The bytes of a word, whatever follows them, are decoded as the word. -/
theorem decodeBytes_bytesOfWord (w : Word) (rest : List Byte) :
    decodeBytes (bytesOfWord w ++ rest) = .ok (decode w, rest) := by
  simp [bytesOfWord, decodeBytes]

/-- Settles O2: each format's fields are read back from its word, and a word from its bytes. -/
theorem decodeInvertsEncode : Obligations.DecodeInvertsEncode := fun i _ =>
  ⟨decode_encode i, fun rest => by rw [decodeBytes_bytesOfWord, decode_encode]⟩

/-! ### The words of an instruction (R59) -/

/-- Clearing the bits of `m` clears them in every field. -/
theorem extractLsb'_clear (w m : Word) {start len : Nat} (h : start + len ≤ 32) :
    (w &&& ~~~ m).extractLsb' start len = w.extractLsb' start len &&& ~~~ m.extractLsb' start len := by
  ext i hi
  have hin : start + i < 32 := by omega
  simp [hin]

section
variable (w m : Word)

theorem opcodeOf_clear : opcodeOf (w &&& ~~~ m) = opcodeOf w &&& ~~~ opcodeOf m := extractLsb'_clear w m (by decide)
theorem rsField_clear : rsField (w &&& ~~~ m) = rsField w &&& ~~~ rsField m := extractLsb'_clear w m (by decide)
theorem rtField_clear : rtField (w &&& ~~~ m) = rtField w &&& ~~~ rtField m := extractLsb'_clear w m (by decide)
theorem rdField_clear : rdField (w &&& ~~~ m) = rdField w &&& ~~~ rdField m := extractLsb'_clear w m (by decide)
theorem shamtOf_clear : shamtOf (w &&& ~~~ m) = shamtOf w &&& ~~~ shamtOf m := extractLsb'_clear w m (by decide)
theorem functOf_clear : functOf (w &&& ~~~ m) = functOf w &&& ~~~ functOf m := extractLsb'_clear w m (by decide)
theorem immOf_clear : immOf (w &&& ~~~ m) = immOf w &&& ~~~ immOf m := extractLsb'_clear w m (by decide)
theorem targetOf_clear : targetOf (w &&& ~~~ m) = targetOf w &&& ~~~ targetOf m := extractLsb'_clear w m (by decide)

end

/-- A word is an R-format word, but for the bits of `m`, exactly when each of its fields is, but for those bits. -/
theorem clear_eq_encodeR_iff {w m : Word} {rs rt rd sh : BitVec 5} {f : BitVec 6} :
    w &&& ~~~ m = encodeR rs rt rd sh f ↔ opcodeOf w &&& ~~~ opcodeOf m = 0#6 ∧ functOf w &&& ~~~ functOf m = f ∧
      rsField w &&& ~~~ rsField m = rs ∧ rtField w &&& ~~~ rtField m = rt ∧ rdField w &&& ~~~ rdField m = rd ∧
      shamtOf w &&& ~~~ shamtOf m = sh := by
  simp only [← opcodeOf_clear, ← functOf_clear, ← rsField_clear, ← rtField_clear, ← rdField_clear, ← shamtOf_clear]
  constructor
  · intro h; simp [h]
  · rintro ⟨hop, rfl, rfl, rfl, rfl, rfl⟩; exact (encodeR_fields hop).symm

/-- The same of an I-format word. -/
theorem clear_eq_encodeI_iff {w m : Word} {op : BitVec 6} {rs rt : BitVec 5} {imm : BitVec 16} :
    w &&& ~~~ m = encodeI op rs rt imm ↔ opcodeOf w &&& ~~~ opcodeOf m = op ∧ rsField w &&& ~~~ rsField m = rs ∧
      rtField w &&& ~~~ rtField m = rt ∧ immOf w &&& ~~~ immOf m = imm := by
  simp only [← opcodeOf_clear, ← rsField_clear, ← rtField_clear, ← immOf_clear]
  constructor
  · intro h; simp [h]
  · rintro ⟨rfl, rfl, rfl, rfl⟩; exact (encodeI_fields _).symm

/-- The same of a J-format word. -/
theorem clear_eq_encodeJ_iff {w m : Word} {op : BitVec 6} {target : BitVec 26} :
    w &&& ~~~ m = encodeJ op target ↔ opcodeOf w &&& ~~~ opcodeOf m = op ∧ targetOf w &&& ~~~ targetOf m = target := by
  simp only [← opcodeOf_clear, ← targetOf_clear]
  constructor
  · intro h; simp [h]
  · rintro ⟨rfl, rfl⟩; exact (encodeJ_fields _).symm


section
variable {w : Word} {i : Instr}

/-! A field none of whose bits is cleared keeps its value. -/

@[simp] theorem and_ones5 (x : BitVec 5) : x &&& 31#5 = x := BitVec.and_allOnes
@[simp] theorem and_ones6 (x : BitVec 6) : x &&& 63#6 = x := BitVec.and_allOnes
@[simp] theorem and_ones16 (x : BitVec 16) : x &&& 65535#16 = x := BitVec.and_allOnes
@[simp] theorem and_ones26 (x : BitVec 26) : x &&& 67108863#26 = x := BitVec.and_allOnes

/-- What the R-format map decodes to an instruction is its encoding but for the ignored bits. -/
theorem clear_of_decodeRFormat (hop : opcodeOf w = 0#6) (h : decodeRFormat w = .instr i) :
    w &&& ~~~ ignoredBits i = encode i := by
  unfold decodeRFormat at h
  split at h
  case h_24 => cases h
  all_goals
    cases h
    rename_i hf
    simp only [encode, encodeRdRsRt, encodeShift, clear_eq_encodeR_iff, hop, hf, ignoredBits]
    simp [opcodeOf, rsField, rtField, rdField, shamtOf, functOf, rsOf, rtOf, rdOf]

theorem clear_of_decodeOpcodeOne (hop : opcodeOf w = 1#6) (h : decodeOpcodeOne w = .instr i) :
    w &&& ~~~ ignoredBits i = encode i := by
  unfold decodeOpcodeOne at h
  split at h
  case h_3 => cases h
  all_goals
    cases h
    rename_i hrt
    simp only [encode, encodeRtRsImm, clear_eq_encodeI_iff, hop, hrt, ignoredBits]
    simp [opcodeOf, rsField, rtField, immOf, rsOf]

/-- What decodes to an instruction is its encoding but for the ignored bits. -/
theorem clear_of_decode (h : decode w = .instr i) : w &&& ~~~ ignoredBits i = encode i := by
  unfold decode at h
  split at h
  case h_1 hop => exact clear_of_decodeRFormat hop h
  case h_2 hop => exact clear_of_decodeOpcodeOne hop h
  case h_22 => cases h
  all_goals
    cases h
    rename_i hop
    simp only [encode, encodeRtRsImm, clear_eq_encodeI_iff, clear_eq_encodeJ_iff, hop, ignoredBits]
    simp [opcodeOf, rsField, rtField, immOf, targetOf, rsOf, rtOf]

/-- The fields the decoder reads are none of those cleared, so they are the encoding's. -/
theorem decode_of_clear (h : w &&& ~~~ ignoredBits i = encode i) : decode w = .instr i := by
  cases i
  case j | jal =>
    simp only [encode, clear_eq_encodeJ_iff, ignoredBits] at h
    simp [opcodeOf, targetOf] at h
    simp [decode, opcodeOf, targetOf, h]
  case bgez | bltz =>
    simp only [encode, encodeRtRsImm, clear_eq_encodeI_iff, ignoredBits] at h
    simp [opcodeOf, rsField, rtField, immOf] at h
    simp [decode, decodeOpcodeOne, opcodeOf, rsOf, rsField, rtField, immOf, h]
  case addi | addiu | andi | ori | xori | slti | lui | lb | lh | lw | sb | sh | sw | beq | bne | bgtz | blez =>
    simp only [encode, encodeRtRsImm, clear_eq_encodeI_iff, ignoredBits] at h
    simp [opcodeOf, rsField, rtField, immOf] at h
    simp [decode, opcodeOf, rsOf, rtOf, rsField, rtField, immOf, h]
  all_goals
    simp only [encode, encodeRdRsRt, encodeShift, clear_eq_encodeR_iff, ignoredBits] at h
    simp [opcodeOf, functOf, rsField, rtField, rdField, shamtOf] at h
    simp [decode, decodeRFormat, opcodeOf, functOf, rsOf, rtOf, rdOf, rsField, rtField, rdField, shamtOf, h]

end

/-- The bits that select an instruction are none of those it ignores. -/
theorem ignoredBits_and_selectorMask (i : Instr) : ignoredBits i &&& selectorMask i = 0#32 := by
  cases i <;> simp [ignoredBits, selectorMask]

/-- Clearing bits outside a mask does not show under the mask. -/
theorem clear_and_of_disjoint {m mask : Word} (h : m &&& mask = 0#32) (w : Word) : w &&& ~~~ m &&& mask = w &&& mask := by
  ext k hk
  have hbit : m.getLsbD k = true → mask.getLsbD k = false := by simpa using congrArg (BitVec.getLsbD · k) h
  cases hm : m.getLsbD k <;> simp_all

/-- Settles O3: a word is its fields, so clearing the ignored bits leaves the encoding's word exactly when the fields the decoder
reads are the encoding's; the selecting bits are then those of the encoding's row. -/
theorem wordsOfAnInstruction : Obligations.WordsOfAnInstruction := by
  intro w i
  refine ⟨⟨clear_of_decode, decode_of_clear⟩, fun h => ?_⟩
  calc w &&& selectorMask i
      = w &&& ~~~ ignoredBits i &&& selectorMask i := (clear_and_of_disjoint (ignoredBits_and_selectorMask i) w).symm
    _ = encode i &&& selectorMask i := by rw [clear_of_decode h]
    _ = selectorBits i := Laws.TableRow.every i

/-- Settles O1: each word is evaluated. -/
theorem specWordsDecode : Obligations.SpecWordsDecode := by
  unfold Obligations.SpecWordsDecode
  decide

end Sys2Proof.Machine
end

section
/-! PROOFS about whole cycles (10_state, 40_cycle_driver, 60_exceptions, 93_implementation_defined): what every instruction
leaves alone, what a cycle can change, where the delay slot leads, and when alignment is lost. -/

namespace Sys2Proof.Machine

/-! ### Every instruction completes (40_cycle_driver R76) -/

theorem exec_completes (i : Instr) (s : State) : ∃ t, exec i s = .next t := by
  cases i <;> exact ⟨_, rfl⟩

theorem Effect.driverKept {i : Instr} {s t : State} (h : Effect i s t) : DriverKept s t := by
  cases h <;> exact ⟨rfl, rfl, rfl, rfl, rfl⟩

/-- Settles O25: none of the effects reaches what the driver owns. -/
theorem everyInstructionCompletes : Obligations.EveryInstructionCompletes := by
  intro i s
  obtain ⟨t, ht⟩ := exec_completes i s
  exact ⟨t, ht, (exec_effect ht).driverKept⟩

/-! ### The cycle around the instruction (R70) -/

/-- A cycle that executes `i` is `exec i` between the prepared state and the cycle's end. -/
theorem step_of_executes {s : State} {i : Instr} (h : s.executes i) : step s = finishOutcome (exec i s.prepare) := by
  obtain ⟨w, ⟨hstarts, hfetched⟩, hdecoded⟩ := h
  rw [step_of_cycleStarts hstarts, runFetched_of_fetch (s.fetchedWord_prepare.trans hfetched), runWord_of_instr _ hdecoded]

/-- The step that executes `i`, given what `exec i` does. -/
theorem step_of_exec {s t : State} {i : Instr} (h : s.executes i) (ht : exec i s.prepare = .next t) :
    step s = .next t.finish := by
  rw [step_of_executes h, ht, finishOutcome_next]

/-- Settles O39: the cycle's parts around the instruction, each by its own lemmas. -/
theorem stepRunsTheDecodedInstruction : Obligations.StepRunsTheDecodedInstruction :=
  ⟨fun _ _ => step_of_executes,
   fun s => ⟨s.prepare_nxt, rfl, rfl, rfl, rfl, rfl, rfl, rfl⟩,
   fun t => ⟨rfl, t.finish_cur, t.finish_nxt, t.finish_mem, t.finish_config, t.finish_icount, t.finish_diag, t.finish_run,
     t.finish_exit⟩⟩

theorem runFetched_completes (s : State) : ∃ t, runFetched s = .next t := by
  cases hf : s.fetchedWord with
  | none => exact ⟨_, runFetched_of_span hf⟩
  | some w =>
    rw [runFetched_of_fetch hf]
    cases hd : decode w with
    | unknown => exact ⟨_, runWord_of_unknown s hd⟩
    | instr i => rw [runWord_of_instr s hd]; exact exec_completes i s

theorem step_completes_of_aligned {s : State} (h : isAligned s.pc = true) : ∃ t, step s = .next t := by
  cases hr : s.run with
  | halted => exact ⟨s, step_of_halted hr⟩
  | running =>
    obtain ⟨t, ht⟩ := runFetched_completes s.prepare
    exact ⟨t.finish, by rw [step_of_cycleStarts ⟨hr, h⟩, ht, finishOutcome_next]⟩

theorem step_of_unaligned {s : State} (hr : s.run = .running) (h : isAligned s.pc = false) :
    step s = .fault .unalignedPc := by
  rw [step_of_running hr, cycle_of_unaligned h]

/-- Settles O40: an aligned cycle completes whatever it fetches. -/
theorem onlyAnUnalignedPcStops : Obligations.OnlyAnUnalignedPcStops := by
  refine fun s => ⟨step_of_unaligned, ?_⟩
  rintro (hr | ha)
  · exact ⟨s, step_of_halted hr⟩
  · exact step_completes_of_aligned ha

theorem State.report_driverKept (s : State) (d : Diag) : DriverKept s (s.report d) := ⟨rfl, rfl, rfl, rfl, rfl⟩

/-- A running core's step is the end of a cycle whose execute phase left the driver's state alone. -/
theorem step_finishes {s t : State} (hr : s.run = .running) (h : step s = .next t) :
    ∃ u, DriverKept s.prepare u ∧ t = u.finish := by
  obtain ⟨hh, -⟩ | ⟨-, -, rfl⟩ | ⟨-, rfl⟩ | ⟨i, u, -, hu, rfl⟩ := step_cases h
  · rw [hr] at hh; cases hh
  · exact ⟨_, s.prepare.report_driverKept _, rfl⟩
  · exact ⟨_, s.prepare.report_driverKept _, rfl⟩
  · exact ⟨u, (exec_effect hu).driverKept, rfl⟩

/-- Settles O48: the commit makes the snapshots equal and counts, and nothing before it counts. -/
theorem everyCycleCommitsAndCounts : Obligations.EveryCycleCommitsAndCounts := by
  intro s t hr h
  obtain ⟨u, hu, rfl⟩ := step_finishes hr h
  refine ⟨u.finish_nxt.trans u.finish_cur.symm, ?_⟩
  rw [u.finish_icount, hu.icount, State.prepare_icount, BitVec.toNat_add]
  rfl

/-! ### What a cycle changes (10_state R12, R13; 20_memory R42) -/

theorem Effect.reg {i : Instr} {s t : State} (h : Effect i s t) (j : Reg) :
    t.nxt.reg j = s.nxt.reg j ∨ destination i = some j := by
  cases h with
  | writes rd v hd | links a rd v _ hd =>
    by_cases hj : j = rd
    · exact .inr (hj ▸ hd)
    · exact .inl (by simp [hj])
  | _ => exact .inl rfl

theorem Effect.hi_lo {i : Instr} {s t : State} (h : Effect i s t) :
    (t.nxt.hi = s.nxt.hi ∧ t.nxt.lo = s.nxt.lo) ∨ writesHiLo i = true := by
  cases h with
  | hiLo _ _ hw => exact .inr hw
  | _ => exact .inl ⟨rfl, rfl⟩

/-- Settles O26: outside an instruction the registers are copied, and each effect writes only where its class says. -/
theorem onlyTheDestinationChanges : Obligations.OnlyTheDestinationChanges := by
  intro s t hr h
  obtain ⟨hh, -⟩ | ⟨-, -, rfl⟩ | ⟨-, rfl⟩ | ⟨i, u, hi, hu, rfl⟩ := step_cases h
  · rw [hr] at hh; cases hh
  · exact ⟨fun j hj => absurd (by simp) hj, fun hne => absurd hne (by simp)⟩
  · exact ⟨fun j hj => absurd (by simp) hj, fun hne => absurd hne (by simp)⟩
  · have he := exec_effect hu
    refine ⟨fun j hj => ⟨i, hi, (he.reg j).resolve_left fun hk => hj (by simp [hk])⟩, fun hne => ⟨i, hi, ?_⟩⟩
    refine he.hi_lo.resolve_left fun ⟨hhi, hlo⟩ => ?_
    simp [hhi, hlo] at hne

@[simp] theorem storeSpan_prepare (s : State) (i : Instr) : storeSpan s.prepare i = storeSpan s i := by
  cases i <;> rfl

/-- Memory changes only by a store whose status is OK, and only in the bytes it is of. -/
theorem Effect.byte {i : Instr} {s t : State} (h : Effect i s t) (hm : s.mem.wf) (b : Nat) :
    t.mem.byte b = s.mem.byte b ∨
    ∃ a n, storeSpan s i = some (a, n) ∧ wordStatus s.config a = .ok ∧ a.toNat ≤ b ∧ b < a.toNat + n := by
  cases h with
  | stores a n v hs _ hok hn =>
    by_cases hout : b < a.toNat ∨ a.toNat + n ≤ b
    · exact .inl ((Memory.byte_store hm a.toNat v hn).2 b hout)
    · exact .inr ⟨a, n, hs, hok, by omega, by omega⟩
  | _ => exact .inl rfl

/-- Settles O27: the store's effect is the one that reaches memory. -/
theorem memoryChangesOnlyByStores : Obligations.MemoryChangesOnlyByStores := by
  intro s t b hm h hne
  obtain ⟨-, rfl⟩ | ⟨-, -, rfl⟩ | ⟨-, rfl⟩ | ⟨i, u, hi, hu, rfl⟩ := step_cases h
  · exact absurd rfl hne
  · exact absurd (by simp) hne
  · exact absurd (by simp) hne
  · obtain hkept | ⟨a, n, hs, hok, hin⟩ := (exec_effect hu).byte hm b
    · exact absurd (by simpa using hkept) hne
    · exact ⟨i, a, n, hi, by simpa using hs, hok, hin⟩

/-! ### Halting (R78) -/

theorem Effect.exit {i : Instr} {s t : State} (h : Effect i s t) :
    t.exit = s.exit ∨ (i = .syscall ∧ s.x 2 = exitCode ∧ t = s.signalExit) := by
  cases h with
  | exits hi hx => exact .inr ⟨hi, hx, rfl⟩
  | _ => exact .inl rfl

/-- A cycle leaves the core running, or is that of the exit SYSCALL. -/
theorem step_run_cases {s t : State} (hr : s.run = .running) (h : step s = .next t) :
    t.run = .running ∨ (s.executes .syscall ∧ s.x 2 = exitCode ∧ t = s.prepare.signalExit.finish) := by
  obtain ⟨hh, -⟩ | ⟨-, -, rfl⟩ | ⟨-, rfl⟩ | ⟨i, u, hi, hu, rfl⟩ := step_cases h
  · rw [hr] at hh; cases hh
  · exact .inl (by simp [hr])
  · exact .inl (by simp [hr])
  · have he := exec_effect hu
    obtain hexit | ⟨rfl, hx, rfl⟩ := he.exit
    · exact .inl (by simp [hexit, he.driverKept.run, hr])
    · exact .inr ⟨hi, hx, rfl⟩

theorem step_of_exit {s : State} (h : s.executes .syscall) (hx : s.x 2 = exitCode) :
    step s = .next s.prepare.signalExit.finish :=
  step_of_exec h (exec_syscall_of_exitCode (s := s.prepare) hx)

/-- Settles O49: only the exit SYSCALL leaves the core other than running, and the signal is its whole execute phase. -/
theorem haltsExactlyOnExitSyscall : Obligations.HaltsExactlyOnExitSyscall := by
  intro s t hr h
  have hcases := step_run_cases hr h
  refine ⟨⟨fun hh => ?_, fun ⟨hi, hx⟩ => ?_⟩, fun hh => ?_⟩
  · obtain hrun | ⟨hi, hx, -⟩ := hcases
    · rw [hh] at hrun; cases hrun
    · exact ⟨hi, hx⟩
  · cases h.symm.trans (step_of_exit hi hx)
    simp
  · obtain hrun | ⟨-, -, rfl⟩ := hcases
    · rw [hh] at hrun; cases hrun
    · simp

/-! ### Transfers (R72) -/

/-- A transfer stages a target or does nothing at all. -/
theorem Effect.of_transfer {i : Instr} {s t : State} (h : Effect i s t) (ht : isTransfer i = true) :
    (∃ a, t.nxt.bd = some a) ∨ t = s := by
  cases h with
  | nothing => exact .inr rfl
  | stages a | links a => exact .inl ⟨a, rfl⟩
  | writes _ _ _ hf => rw [ht] at hf; cases hf
  | hiLo _ _ hw | divideByZero hw => cases i <;> simp_all [isTransfer, writesHiLo]
  | span _ ha | stores _ _ _ _ ha => cases i <;> simp_all [isTransfer, accessAddress]
  | exits hi => subst hi; cases ht

/-- Settles O42: by the effects a transfer, and an instruction that is none, can have. -/
theorem onlyTransfersStageATarget : Obligations.OnlyTransfersStageATarget := by
  refine ⟨fun i s t h => ?_, fun rd rs target s t h => ?_⟩
  · have he := exec_effect h
    exact ⟨he.nxt_pc, fun hf => he.nxt_bd.resolve_left (by simp [hf]), he.of_transfer⟩
  · rcases h with h | h | h | h <;> cases h <;> exact ⟨_, rfl⟩

/-- A cycle that stages a target leaves the core running. -/
theorem run_of_staged {s t : State} (hr : s.run = .running) (h : step s = .next t) {a : Word} (ha : t.cur.bd = some a) :
    t.run = .running := by
  obtain hrun | ⟨-, -, rfl⟩ := step_run_cases hr h
  · exact hrun
  · simp at ha

/-! ### The delay slot (R73, R74) -/

/-- From an aligned `PC` a running core takes one more cycle, and is then where the sequencer leads. -/
theorem step_to_sequencedPc {u : State} (hr : u.run = .running) (ha : isAligned u.cur.pc = true) :
    ∃ t, step u = .next t ∧ t.cur.pc = u.sequencedPc := by
  obtain ⟨t, ht⟩ := step_completes_of_aligned ha
  exact ⟨t, ht, (step_sequences hr ht).1⟩

/-- Settles O43: the second cycle starts at the aligned `A + 4` and goes where the slot says. -/
theorem delaySlotLaw : Obligations.DelaySlotLaw := by
  intro s u hstarts hempty h
  have hpc : u.cur.pc = s.cur.pc + 4#32 :=
    (step_sequences hstarts.1 h).1.trans (State.sequencedPc_of_empty hempty)
  have haligned : isAligned u.cur.pc = true := hpc ▸ isAligned_add_four hstarts.2
  refine ⟨fun a ha => ?_, fun hn hrun => ?_⟩
  · have hrun := run_of_staged hstarts.1 h ha
    obtain ⟨t, ht, htpc⟩ := step_to_sequencedPc hrun haligned
    exact ⟨hrun, hpc, t, ht, htpc.trans (State.sequencedPc_of_pending ha)⟩
  · obtain ⟨t, ht, htpc⟩ := step_to_sequencedPc hrun haligned
    refine ⟨hpc, t, ht, ?_⟩
    rw [htpc, State.sequencedPc_of_empty hn, hpc, BitVec.add_assoc]
    rfl

/-- Settles O44: the pending target is where the core is next, and the staged one is pending there. -/
theorem transferInADelaySlot : Obligations.TransferInADelaySlot := by
  intro s u a b hr hpending h hstaged
  have hpc : u.cur.pc = a := (step_sequences hr h).1.trans (State.sequencedPc_of_pending hpending)
  have hrun := run_of_staged hr h hstaged
  refine ⟨hpc, hrun, fun ha => ?_⟩
  obtain ⟨t, ht, htpc⟩ := step_to_sequencedPc hrun (hpc ▸ ha)
  exact ⟨t, ht, htpc.trans (State.sequencedPc_of_pending hstaged)⟩

/-! ### Alignment (10_state R15; 93_implementation_defined U1) -/

theorem isAligned_iff {a : Word} : isAligned a = true ↔ a.toNat % 4 = 0 := by
  rw [isAligned, decide_eq_true_eq, ← BitVec.toNat_inj, BitVec.extractLsb'_toNat]
  simp

/-- What the constraints say of each region (00_scope R3). -/
theorem region_of_wf {c : Config} (h : c.wf = true) {r : Region} (hr : r ∈ c.regions) :
    r.base % 4 = 0 ∧ r.size % 4 = 0 ∧ 0 < r.size ∧ r.base + r.size ≤ 2 ^ 32 := by
  simp only [Config.wf, Bool.and_eq_true] at h
  obtain ⟨⟨⟨⟨⟨hbases, hsizes⟩, hpos⟩, hfit⟩, -⟩, -⟩ := h
  exact ⟨beq_iff_eq.mp (List.all_eq_true.mp hbases r hr), beq_iff_eq.mp (List.all_eq_true.mp hsizes r hr),
    of_decide_eq_true (List.all_eq_true.mp hpos r hr), of_decide_eq_true (List.all_eq_true.mp hfit r hr)⟩

/-- `MEM_TEXT_BEGIN` is the base of a region (00_scope R3). -/
theorem textRegion_of_wf {c : Config} (h : c.wf = true) : ∃ r ∈ c.regions, r.base = c.textBegin.toNat := by
  simp only [Config.wf, Bool.and_eq_true] at h
  obtain ⟨r, hr, hbase⟩ := List.any_eq_true.mp h.2
  exact ⟨r, hr, beq_iff_eq.mp hbase⟩

theorem isAligned_textBegin {c : Config} (h : c.wf = true) : isAligned c.textBegin = true := by
  obtain ⟨r, hr, hbase⟩ := textRegion_of_wf h
  rw [isAligned_iff, ← hbase]
  exact (region_of_wf h hr).1

/-- The sequencer leads from an aligned `PC` and slot to an aligned `PC`. -/
theorem isAligned_sequencedPc {s : State} (hpc : isAligned s.pc = true) (hbd : ∀ a, s.cur.bd = some a → isAligned a = true) :
    isAligned s.sequencedPc = true := by
  cases h : s.cur.bd with
  | none => rw [State.sequencedPc_of_empty h]; exact isAligned_add_four hpc
  | some a => rw [State.sequencedPc_of_pending h]; exact hbd a h

@[simp] theorem registerTarget_prepare (s : State) (i : Instr) : registerTarget s.prepare i = registerTarget s i := by
  cases i <;> rfl

/-- A staged target is aligned where `PC` is, or is the value of JR's or JALR's register. -/
theorem Effect.staged {i : Instr} {s t : State} (h : Effect i s t) : t.nxt.bd = s.nxt.bd ∨
    ∃ a, t.nxt.bd = some a ∧ ((isAligned s.pc = true → isAligned a = true) ∨ registerTarget s i = some a) := by
  cases h with
  | stages a _ _ ha | links a _ _ _ _ ha => exact .inr ⟨a, rfl, ha⟩
  | _ => exact .inl rfl

/-- Settles O45: the sequencer keeps alignment, and of the staged targets only a register's value can lack it. -/
theorem alignmentIsLostOnlyByJumpRegister : Obligations.AlignmentIsLostOnlyByJumpRegister := by
  refine ⟨fun c hc => isAligned_textBegin hc, fun s t hr h hbd htarget => ?_⟩
  have hstarts : s.cycleStarts := (cycle_of_step hr h).1
  refine ⟨(step_sequences hr h).1 ▸ isAligned_sequencedPc hstarts.2 hbd, fun a ha => ?_⟩
  obtain ⟨hh, -⟩ | ⟨-, -, rfl⟩ | ⟨-, rfl⟩ | ⟨i, u, hi, hu, rfl⟩ := step_cases h
  · rw [hr] at hh; cases hh
  · simp at ha
  · simp at ha
  · obtain hkept | ⟨b, hb, halign⟩ := (exec_effect hu).staged
    · simp [hkept] at ha
    · obtain rfl : b = a := by simpa [hb] using ha
      obtain halign | hreg := halign
      · exact halign hstarts.2
      · exact htarget i b hi (by simpa using hreg)

/-- JR and JALR stage the value of their register. -/
theorem exec_of_registerTarget {i : Instr} {s : State} {a : Word} (h : registerTarget s i = some a) :
    ∃ t, exec i s = .next t ∧ t.nxt.bd = some a := by
  cases i
  case jr | jalr => exact ⟨_, rfl, h⟩
  all_goals cases h

/-- Settles O46: the jump's cycle and the delay slot's start aligned; the one after starts at the register's value. -/
theorem unalignedJumpFaultsAfterTheDelaySlot : Obligations.UnalignedJumpFaultsAfterTheDelaySlot := by
  intro s i a hi htarget hunaligned hbd
  have hstarts : s.cycleStarts := by obtain ⟨w, hw, -⟩ := hi; exact hw.1
  obtain ⟨v, hv, hvbd⟩ := exec_of_registerTarget (s := s.prepare) (by simpa using htarget)
  have hstep : step s = .next v.finish := step_of_exec hi hv
  have hstaged : v.finish.cur.bd = some a := by simpa using hvbd
  have hpc : isAligned v.finish.cur.pc = true :=
    (step_sequences hstarts.1 hstep).1 ▸ isAligned_sequencedPc hstarts.2 hbd
  obtain ⟨t, ht, htpc⟩ := step_to_sequencedPc (run_of_staged hstarts.1 hstep hstaged) hpc
  have hta : t.cur.pc = a := htpc.trans (State.sequencedPc_of_pending hstaged)
  exact ⟨v.finish, t, hstep, ht, hta, fun hrun => step_of_unaligned hrun (by rw [State.pc, hta]; exact hunaligned)⟩

end Sys2Proof.Machine
end

section
/-! PROOFS about memory (20_memory, 46_load_store): the word primitives by region (R33, R34), the accesses of 1, 2 and 4 bytes
(R36, R37), and what the loads and stores do with them (R126 to R133). -/

namespace Sys2Proof.Machine

/-! ### The word primitives, by the region of the first byte (20_memory R33, R34) -/

section
variable {c : Config} {a : Word}

theorem wordStatus_of_no_region (h : regionOf c a = none) : wordStatus c a = .unmapped := by
  simp [wordStatus, h]

theorem wordStatus_of_region_end {r : Region} (h : regionOf c a = some r) (hend : a.toNat + 3 ≥ r.base + r.size) :
    wordStatus c a = .span := by
  simp [wordStatus, h, hend]

theorem wordStatus_of_region {r : Region} (h : regionOf c a = some r) (hin : a.toNat + 3 < r.base + r.size) :
    wordStatus c a = .ok := by
  simp [wordStatus, h, hin]

end

theorem Memory.toNat_word (m : Memory) (a : Nat) : (m.word a).toNat = (m.byte a).toNat + 2 ^ 8 * (m.byte (a + 1)).toNat +
    2 ^ 16 * (m.byte (a + 2)).toNat + 2 ^ 24 * (m.byte (a + 3)).toNat :=
  toNat_wordOfBytes _ _ _ _

/-- Settles O32: the region of the first byte decides the status, and an OK read is the word of its bytes. -/
theorem readWordOutcomes : Obligations.ReadWordOutcomes := by
  refine fun c m a =>
    ⟨fun h => readWord_unmapped m (wordStatus_of_no_region h), fun r hr => ⟨fun hend => ?_, fun hin => ?_⟩⟩
  · exact readWord_span m (wordStatus_of_region_end hr hend)
  · exact ⟨m.word a.toNat, readWord_ok m (wordStatus_of_region hr hin), m.toNat_word a.toNat⟩

/-- Settles O33: the region of the first byte decides the status, and an OK write is that of the word's bytes. -/
theorem writeWordOutcomes : Obligations.WriteWordOutcomes := by
  refine fun c m a v hm =>
    ⟨fun h => writeWord_unmapped m v (wordStatus_of_no_region h), fun r hr => ⟨fun hend => ?_, fun hin => ?_⟩⟩
  · exact writeWord_span m v (wordStatus_of_region_end hr hend)
  · have hbyte : ∀ k, k < 4 → (m.setWord a.toNat v).byte (a.toNat + k) = byteOfWord v k :=
      fun k hk => Memory.byte_setWord_inside hm a.toNat v hk
    exact ⟨_, writeWord_ok m v (wordStatus_of_region hr hin), hbyte 0 (by decide), hbyte 1 (by decide), hbyte 2 (by decide),
      hbyte 3 (by decide), fun b hb => Memory.byte_setWord_outside m v hb⟩

/-- Settles O37: a multiple of 4 has room for four bytes in a region whose base and size are multiples of 4. -/
theorem spanOnlyInTheLastThreeBytes : Obligations.SpanOnlyInTheLastThreeBytes := by
  intro c a hc hs
  obtain ⟨r, hr, hlow, hhigh, hend⟩ := wordStatus_span hs
  obtain ⟨hbase, hsize, -, -⟩ := region_of_wf hc hr
  refine ⟨?_, r, hr, hlow, hend, hhigh⟩
  rw [← Bool.not_eq_true, isAligned_iff]
  omega

/-! ### Accesses of 1, 2 and 4 bytes (20_memory R36, R37) -/

/-- Settles O34: every primitive has the status of the word that begins at the address. -/
theorem subwordAccesses : Obligations.SubwordAccesses := by
  intro c m a v n hm hn
  refine ⟨fun h => ⟨memRead_span m _ h, memWrite_span m _ v h⟩, fun h => ⟨memRead_unmapped m _ h, memWrite_unmapped m _ v h⟩,
    fun h => ⟨⟨_, _, readWord_ok m h, memRead_ok m _ h, BitVec.toNat_setWidth _ _⟩, _, memWrite_ok m _ v h, ?_⟩⟩
  exact Memory.byte_store hm a.toNat v hn

theorem Memory.byteOfWord_word (m : Memory) (a : Nat) {k : Nat} (hk : k < 4) :
    byteOfWord (m.word a) k = m.byte (a + k) := by
  interval_cases k <;> simp [Memory.word]

/-- The low byte of a word is its first. -/
theorem setWidth_eight (w : Word) : w.setWidth 8 = byteOfWord w 0 := by
  ext i hi; simp [byteOfWord]

theorem Memory.setWidth_eight_word (m : Memory) (a : Nat) : (m.word a).setWidth 8 = m.byte a := by
  rw [setWidth_eight, m.byteOfWord_word _ (by decide), Nat.add_zero]

/-- A half of a word is two of its bytes. -/
theorem extractLsb'_half (w : Word) (k : Nat) : w.extractLsb' (8 * k) 16 = byteOfWord w (k + 1) ++ byteOfWord w k := by
  apply BitVec.eq_of_getLsbD_eq
  intro i hi
  simp only [byteOfWord, BitVec.getLsbD_append, BitVec.getLsbD_extractLsb']
  by_cases hlow : i < 8
  · simp [hlow, hi]
  · have hidx : 8 * (k + 1) + (i - 8) = 8 * k + i := by omega
    have hhigh : i - 8 < 8 := by omega
    simp [hlow, hi, hidx, hhigh]

/-- The low half of a word is its first two bytes. -/
theorem setWidth_sixteen (w : Word) : w.setWidth 16 = byteOfWord w 1 ++ byteOfWord w 0 := by
  rw [← extractLsb'_half w 0]
  ext i hi; simp

/-- In a map that meets the constraints the four addresses of an OK word do not wrap (00_scope R3). -/
theorem toNat_add_of_ok {c : Config} {a : Word} (hc : c.wf = true) (h : wordStatus c a = .ok) {k : Nat} (hk : k < 4) :
    (a + BitVec.ofNat 32 k).toNat = a.toNat + k := by
  obtain ⟨r, hr, -, hin⟩ := wordStatus_ok h
  obtain ⟨-, -, -, hfit⟩ := region_of_wf hc hr
  rw [BitVec.toNat_add, BitVec.toNat_ofNat]
  omega

theorem memRead_eight {c : Config} {a : Word} (m : Memory) (h : wordStatus c a = .ok) :
    memRead c m 8 a = .ok (m.byte a.toNat) := by
  rw [memRead_ok m 8 h, m.setWidth_eight_word]

theorem memRead_sixteen {c : Config} {a : Word} (m : Memory) (h : wordStatus c a = .ok) :
    memRead c m 16 a = .ok (m.byte (a.toNat + 1) ++ m.byte a.toNat) := by
  rw [memRead_ok m 16 h, setWidth_sixteen, m.byteOfWord_word _ (by decide), m.byteOfWord_word _ (by decide)]
  rfl

/-- A write that answers OK has the status OK, and its memory is that of the merged word. -/
theorem memWrite_eq_ok {c : Config} {m m' : Memory} {bits : Nat} {a v : Word} (h : memWrite c m bits a v = (.ok, m')) :
    wordStatus c a = .ok ∧ m' = m.setWord a.toNat (m.word a.toNat &&& ~~~(lowMask bits) ||| v &&& lowMask bits) := by
  cases hs : wordStatus c a with
  | ok => rw [memWrite_ok m bits v hs] at h; exact ⟨rfl, (Prod.mk.inj h).2.symm⟩
  | unmapped => rw [memWrite_unmapped m bits v hs] at h; cases h
  | span => rw [memWrite_span m bits v hs] at h; cases h

/-- Settles O36: a read of one or two bytes gives bytes of memory, and those are the written word's. -/
theorem mixedWidthsAreLittleEndian : Obligations.MixedWidthsAreLittleEndian := by
  intro c m m' a v hc hm hw
  obtain ⟨hok, rfl⟩ := memWrite_eq_ok hw
  have hbyte := (Memory.byte_store hm a.toNat v (n := 4) (by decide)).1
  have h0 := hbyte 0 (by decide)
  have h1 := hbyte 1 (by decide)
  have h2 := hbyte 2 (by decide)
  have h3 := hbyte 3 (by decide)
  have a1 := toNat_add_of_ok hc hok (k := 1) (by decide)
  have a2 := toNat_add_of_ok hc hok (k := 2) (by decide)
  have a3 := toNat_add_of_ok hc hok (k := 3) (by decide)
  refine ⟨?_, ?_, fun hs => ?_, fun hs => ⟨?_, ?_⟩, fun hs => ?_⟩
  · rw [memRead_eight _ hok]; exact congrArg ReadResult.ok h0
  · rw [memRead_sixteen _ hok, h1]; exact congrArg ReadResult.ok ((congrArg _ h0).trans (extractLsb'_half v 0).symm)
  · rw [memRead_eight _ hs, a1, h1]; rfl
  · rw [memRead_eight _ hs, a2, h2]; rfl
  · rw [memRead_sixteen _ hs, a2, h2, Nat.add_assoc, h3]; exact congrArg ReadResult.ok (extractLsb'_half v 2).symm
  · rw [memRead_eight _ hs, a3, h3]; rfl

/-! ### Loads (46_load_store R126 to R129) -/

/-- The effective address is the base plus the signed displacement modulo 2^32 (R126). -/
theorem toNat_effectiveAddress (base : Word) (imm : BitVec 16) :
    ((effectiveAddress base imm).toNat : Int) = (base.toNat + imm.toInt) % 2 ^ 32 := by
  rw [effectiveAddress, toNat_add_eq_add_toInt, toInt_sext16]

theorem State.report_writesNoGpr (s : State) (d : Diag) : WritesNoGpr s s.nxt.hi s.nxt.lo s.nxt.bd d (s.report d) where
  driver := s.report_driverKept d
  gprs := fun _ => rfl
  hi := rfl
  lo := rfl
  bd := rfl
  mem := rfl
  diag := rfl
  exit := rfl

theorem State.writesNothing_self (s : State) : WritesNothing s s :=
  ⟨⟨rfl, rfl, rfl, rfl, rfl⟩, fun _ => rfl, rfl, rfl, rfl, rfl, rfl, rfl⟩

/-- A load by its status: what the extension makes of the low bits of the word, or of the 0 of an unmapped address, or the
report. -/
theorem State.load_loadsAt {s : State} {rs : Reg} {imm : BitVec 16} {bits : Nat} {ext : BitVec bits → Word} (rt : Reg)
    {value : Word → Prop} (hzero : ext 0#bits = 0#32)
    (hvalue : value (ext ((s.mem.word (effectiveAddress (s.x rs) imm).toNat).setWidth bits))) :
    LoadsAt s (effectiveAddress (s.x rs) imm) rt value (s.load bits ext rt rs imm) where
  ok h := ⟨_, hvalue, by rw [State.load_ok bits ext rt h]; exact s.setX_writesGpr rt _⟩
  unmapped h := by rw [State.load_unmapped bits ext rt h, hzero]; exact s.setX_writesGpr rt _
  span h := by rw [State.load_span bits ext rt h]; exact s.report_writesNoGpr _

theorem Memory.setWidth_sixteen_word (m : Memory) (a : Nat) :
    (m.word a).setWidth 16 = BitVec.ofNat 16 ((m.byte a).toNat + 2 ^ 8 * (m.byte (a + 1)).toNat) := by
  rw [← BitVec.toNat_inj, BitVec.toNat_setWidth, BitVec.toNat_ofNat, m.toNat_word]
  omega

@[simp] theorem toInt_sext8 (v : Byte) : (sext8 v).toInt = v.toInt :=
  BitVec.toInt_signExtend_of_le (by decide)

theorem exec_lb (rt rs : Reg) (imm : BitVec 16) (s : State) :
    exec (.lb rt rs imm) s = .next (s.load 8 sext8 rt rs imm) := rfl
theorem exec_lh (rt rs : Reg) (imm : BitVec 16) (s : State) :
    exec (.lh rt rs imm) s = .next (s.load 16 sext16 rt rs imm) := rfl
theorem exec_lw (rt rs : Reg) (imm : BitVec 16) (s : State) :
    exec (.lw rt rs imm) s = .next (s.load 32 (fun v => v) rt rs imm) := rfl

/-- Settles O18: each load is `State.load` with its width, and the low bits of the word are the bytes from its address. -/
theorem loadsReadTheirBytes : Obligations.LoadsReadTheirBytes := by
  refine ⟨decodesOpcode_lb, decodesOpcode_lh, decodesOpcode_lw, fun rt rs imm s => ?_⟩
  refine ⟨effectiveAddress (s.x rs) imm, toNat_effectiveAddress _ _, ⟨_, exec_lb rt rs imm s, ?_⟩, ⟨_, exec_lh rt rs imm s, ?_⟩,
    ⟨_, exec_lw rt rs imm s, ?_⟩⟩
  · exact State.load_loadsAt rt rfl (by rw [toInt_sext8, Memory.setWidth_eight_word])
  · exact State.load_loadsAt rt rfl (by rw [toInt_sext16, Memory.setWidth_sixteen_word])
  · exact State.load_loadsAt rt rfl (by rw [BitVec.setWidth_eq, Memory.toNat_word])

/-! ### Stores (46_load_store R130 to R132) -/

/-- A store by its status: the bytes of the register, nothing, or the report. -/
theorem State.store_storesAt {s : State} (hm : s.mem.wf) {n : Nat} (hn : n ∈ [1, 2, 4]) (rt rs : Reg) (imm : BitVec 16) :
    StoresAt s (effectiveAddress (s.x rs) imm) n (s.x rt) (s.store (8 * n) rt rs imm) where
  ok h := by
    obtain ⟨hstored, houtside⟩ := Memory.byte_store hm (effectiveAddress (s.x rs) imm).toNat (s.x rt) hn
    rw [State.store_ok (8 * n) rt h]
    exact ⟨⟨rfl, rfl, rfl, rfl, rfl⟩, fun _ => rfl, rfl, rfl, rfl, rfl, rfl, hstored, houtside⟩
  unmapped h := by rw [State.store_unmapped (8 * n) rt h]; exact s.writesNothing_self
  span h := by rw [State.store_span (8 * n) rt h]; exact s.report_writesNoGpr _

theorem exec_sh (rt rs : Reg) (imm : BitVec 16) (s : State) : exec (.sh rt rs imm) s = .next (s.store 16 rt rs imm) := rfl
theorem exec_sw (rt rs : Reg) (imm : BitVec 16) (s : State) : exec (.sw rt rs imm) s = .next (s.store 32 rt rs imm) := rfl

/-- Settles O19: each store is `State.store` with its width. -/
theorem storesWriteTheirBytes : Obligations.StoresWriteTheirBytes := by
  refine ⟨decodesOpcode_sb, decodesOpcode_sh, decodesOpcode_sw, fun rt rs imm s hm => ?_⟩
  exact ⟨toNat_effectiveAddress _ _, ⟨_, exec_sb rt rs imm s, State.store_storesAt hm (n := 1) (by decide) rt rs imm⟩,
    ⟨_, exec_sh rt rs imm s, State.store_storesAt hm (n := 2) (by decide) rt rs imm⟩,
    ⟨_, exec_sw rt rs imm s, State.store_storesAt hm (n := 4) (by decide) rt rs imm⟩⟩

/-! ### Self-modification (20_memory R44) -/

/-- A store instruction whose status is OK writes the merged word, and nothing else. -/
theorem exec_of_store {i : Instr} {s : State} {a v : Word} {n : Nat} (hspan : storeSpan s i = some (a, n))
    (hv : storedWord s i = some v) (hok : wordStatus s.config a = .ok) : n ∈ [1, 2, 4] ∧ exec i s =
      .next (s.setMem (s.mem.setWord a.toNat (s.mem.word a.toNat &&& ~~~(lowMask (8 * n)) ||| v &&& lowMask (8 * n)))) := by
  cases i
  case sb | sh | sw => cases hspan; cases hv; exact ⟨by decide, congrArg Host.Outcome.next (State.store_ok _ _ hok)⟩
  all_goals cases hspan

@[simp] theorem storedWord_prepare (s : State) (i : Instr) : storedWord s.prepare i = storedWord s i := by
  cases i <;> rfl

theorem State.fetchedWord_of_ok {s : State} (h : wordStatus s.config s.pc = .ok) :
    s.fetchedWord = some (s.mem.word s.pc.toNat) := by
  simp [State.fetchedWord, readWord_ok _ h]

/-- Settles O38: memory is not double-buffered, so the next cycle's fetch reads the bytes the store left. -/
theorem storeIsSeenByTheNextFetch : Obligations.StoreIsSeenByTheNextFetch := by
  intro s i a n v hm hi hspan hv hok
  obtain ⟨hn, hexec⟩ := exec_of_store (s := s.prepare) (by simpa using hspan) (by simpa using hv) hok
  obtain ⟨hstored, houtside⟩ := Memory.byte_store hm a.toNat v hn
  refine ⟨_, step_of_exec hi hexec, by simp [State.pc], fun hfetch => ?_⟩
  refine ⟨_, State.fetchedWord_of_ok (by simpa using hfetch), fun k hk => ?_⟩
  rw [Memory.byteOfWord_word _ _ hk, State.finish_mem, State.setMem_mem, State.prepare_mem]
  split
  · rename_i hin
    obtain ⟨j, hj⟩ := Nat.exists_eq_add_of_le hin.1
    rw [hj, Nat.add_sub_cancel_left]
    exact hstored j (by omega)
  · exact houtside _ (by omega)

end Sys2Proof.Machine
end

section
/-! PROOFS about diagnostics and register 0 (60_exceptions, 10_state R11): which cycles report what (R151), the cycles that
commit nothing (46_load_store R133, 30_encoding R61), and that register 0 is written like any other. -/

namespace Sys2Proof.Machine

/-! ### Instructions that only report, or do nothing -/

section
variable {i : Instr} {s : State}

theorem exec_of_divisor_zero (h : divisorOf s i = some 0#32) : exec i s = .next (s.report .divideByZero) := by
  cases i
  case div rs rt | divu rs rt =>
    have hrt : s.x rt = 0#32 := Option.some.inj h
    simp only [exec, execDiv, execDivu, hrt, State.divide_by_zero]
  all_goals cases h

theorem exec_of_span {a : Word} (ha : accessAddress s i = some a) (hs : wordStatus s.config a = .span) :
    exec i s = .next (s.report .misalignedSpan) := by
  cases i
  case lb | lh | lw => cases ha; exact congrArg Host.Outcome.next (State.load_span _ _ _ hs)
  case sb | sh | sw => cases ha; exact congrArg Host.Outcome.next (State.store_span _ _ hs)
  all_goals cases ha

theorem exec_of_unmapped_store {a : Word} (ha : accessAddress s i = some a) (hd : destination i = none)
    (hs : wordStatus s.config a = .unmapped) : exec i s = .next s := by
  cases i
  case lb | lh | lw => cases hd
  case sb | sh | sw => cases ha; exact congrArg Host.Outcome.next (State.store_unmapped _ _ hs)
  all_goals cases ha

end

/-- Where the execute phase does nothing, the cycle commits nothing but the sequenced `PC` and the count. -/
theorem State.finish_prepare_commitsNothing (s : State) : CommitsNothing s .none s.prepare.finish := by
  constructor <;> simp

/-- Settles O20: the execute phase of a span-faulted access is the report, that of an unmapped store is nothing. -/
theorem spanAndUnmappedAccessesCommitNothing : Obligations.SpanAndUnmappedAccessesCommitNothing := by
  intro s i a hi ha
  have hprep : accessAddress s.prepare i = some a := (accessAddress_prepare s i).trans ha
  refine ⟨fun hs => ?_, fun hs hd => ?_⟩
  · exact ⟨_, step_of_exec hi (exec_of_span hprep hs), s.finish_report_prepare_commitsNothing _⟩
  · exact ⟨_, step_of_exec hi (exec_of_unmapped_store hprep hd hs), s.finish_prepare_commitsNothing⟩

/-! ### The all-zero word (30_encoding R61) -/

theorem State.setX_reg_self (s : State) (i : Reg) : s.setX i (s.nxt.reg i) = s := by
  simp [State.setX]

/-- Before the instruction the next snapshot holds the current registers (40_cycle_driver R70). -/
@[simp] theorem State.reg_prepare_nxt (s : State) (i : Reg) : s.prepare.nxt.reg i = s.x i := by
  rw [State.prepare_nxt]; rfl

theorem exec_sll_zero (s : State) : exec (.sll 0 0 0#5) s.prepare = .next s.prepare := by
  have hself := s.prepare.setX_reg_self 0
  rw [State.reg_prepare_nxt] at hself
  simpa [exec, execSll] using hself

theorem decode_zero : decode 0x00000000#32 = .instr (.sll 0 0 0#5) := by decide

/-- Settles O5: the shift by 0 writes to register 0 what it holds. -/
theorem zeroWordIsANoOperation : Obligations.ZeroWordIsANoOperation := by
  refine ⟨decode_zero, fun s hstarts hs => ⟨hstarts, ?_⟩, fun s hf => ?_⟩
  · simp [State.fetchedWord, readWord_unmapped _ hs]
  · exact ⟨_, step_of_exec ⟨_, hf, decode_zero⟩ (exec_sll_zero s), s.finish_prepare_commitsNothing⟩

/-! ### Diagnostics by cause (60_exceptions R151) -/

@[simp] theorem divisorOf_prepare (s : State) (i : Instr) : divisorOf s.prepare i = divisorOf s i := by
  cases i <;> rfl

/-- What a cycle reports, each with its cause. -/
theorem step_diag_cases {s t : State} (hr : s.run = .running) (h : step s = .next t) :
    t.diag = .none ∨ (t.diag = .unknownOpcode ∧ s.executesUnknown) ∨
    (t.diag = .divideByZero ∧ ∃ i, s.executes i ∧ divisorOf s i = some 0#32) ∨
    (t.diag = .misalignedSpan ∧ (s.fetchedWord = none ∨
      ∃ i a, s.executes i ∧ accessAddress s i = some a ∧ wordStatus s.config a = .span)) := by
  obtain ⟨hh, -⟩ | ⟨-, hf, rfl⟩ | ⟨hu, rfl⟩ | ⟨i, u, hi, hu, rfl⟩ := step_cases h
  · rw [hr] at hh; cases hh
  · exact .inr (.inr (.inr ⟨by simp, .inl hf⟩))
  · exact .inr (.inl ⟨by simp, hu⟩)
  · obtain hkept | ⟨hd, rfl⟩ | ⟨a, ha, hs, rfl⟩ := (exec_effect hu).diag_cases
    · exact .inl (u.finish_diag.trans hkept)
    · exact .inr (.inr (.inl ⟨by simp, i, hi, by simpa using hd⟩))
    · exact .inr (.inr (.inr ⟨by simp, .inr ⟨i, a, hi, by simpa using ha, hs⟩⟩))

/-- A SPAN fetch reports, and executes nothing (40_cycle_driver R75). -/
theorem step_of_span_fetch {s : State} (hc : s.cycleStarts) (hf : s.fetchedWord = none) :
    step s = .next (s.prepare.report .misalignedSpan).finish := by
  rw [step_of_cycleStarts hc, runFetched_of_span (s.fetchedWord_prepare.trans hf), finishOutcome_next]

/-- A cycle whose execute phase is a report shows it. -/
theorem diag_of_report {s t : State} {d : Diag} (h : step s = .next t) (hd : step s = .next (s.prepare.report d).finish) :
    t.diag = d := by
  cases h.symm.trans hd
  simp

/-- Settles O30: each cause makes its report the whole execute phase, and a report has one of the causes. -/
theorem diagnosticsByCause : Obligations.DiagnosticsByCause := by
  intro s t hr h
  have hcases := step_diag_cases hr h
  refine ⟨⟨fun hd => by simpa [hd] using hcases, fun hu => ?_⟩, ⟨fun hd => by simpa [hd] using hcases, ?_⟩,
    ⟨fun hd => by simpa [hd] using hcases, ?_⟩⟩
  · exact diag_of_report h (step_of_executesUnknown hu)
  · rintro ⟨i, hi, hz⟩
    exact diag_of_report h (step_of_exec hi (exec_of_divisor_zero (by simpa using hz)))
  · rintro (hf | ⟨i, a, hi, ha, hs⟩)
    · exact diag_of_report h (step_of_span_fetch (cycle_of_step hr h).1 hf)
    · exact diag_of_report h (step_of_exec hi (exec_of_span (by simpa using ha) hs))

/-! ### Register 0 (10_state R11) -/

/-- The cycle of an instruction whose effect is one register write, of register 0 as of any other, commits the value. -/
theorem step_of_setX {s : State} {i : Instr} {rd : Reg} {v : Word} (h : s.executes i)
    (he : exec i s.prepare = .next (s.prepare.setX rd v)) : ∃ t, step s = .next t ∧ t.cur.reg rd = v :=
  ⟨_, step_of_exec h he, by simp⟩

theorem State.load_of_memRead_ok {s : State} {bits : Nat} {rs : Reg} {imm : BitVec 16} {v : BitVec bits}
    (h : memRead s.config s.mem bits (effectiveAddress (s.x rs) imm) = .ok v) (ext : BitVec bits → Word) (rt : Reg) :
    s.load bits ext rt rs imm = s.setX rt (ext v) := by
  simp [State.load, h]

theorem memRead_of_readWord_ok {c : Config} {m : Memory} {a v : Word} (h : readWord c m a = .ok v) :
    memRead c m 32 a = .ok v := by
  simp [memRead, h]

theorem exec_jalr (rd rs : Reg) (s : State) :
    exec (.jalr rd rs) s = .next ((s.stage (s.x rs)).setX rd (linkAddress s.pc)) := rfl

/-- Settles O28: each listed instruction writes register 0 like any other destination. -/
theorem registerZeroIsOrdinary : Obligations.RegisterZeroIsOrdinary := by
  refine ⟨fun s h => step_of_setX h (exec_addi 0 0 5#16 _), fun s h => ?_, fun s rs h => ?_, fun s rs imm v h hv => ?_,
    fun s rs imm v h hv => ?_, fun s rs imm v h hv => ?_, fun s v => ?_, fun s => Snapshot.reset_reg s.config 0, ?_⟩
  · exact ⟨_, step_of_exec h (exec_sll_zero s), by rw [State.finish_cur, State.reg_prepare_nxt]; rfl⟩
  · exact ⟨_, step_of_exec h (exec_jalr 0 rs _), by simp [linkAddress, State.pc]⟩
  · exact step_of_setX h (congrArg Host.Outcome.next
      (State.load_of_memRead_ok (s := s.prepare) (memRead_of_readWord_ok hv) (fun v => v) 0))
  · exact step_of_setX h (congrArg Host.Outcome.next (State.load_of_memRead_ok (s := s.prepare) hv sext16 0))
  · exact step_of_setX h (congrArg Host.Outcome.next (State.load_of_memRead_ok (s := s.prepare) hv sext8 0))
  · exact s.cur.reg_setReg_same 0 v
  · exact fun s t hr h hne => (onlyTheDestinationChanges s t hr h).1 0 hne

end Sys2Proof.Machine
end

section
/-! PROOFS about the arithmetic, logic, shift, multiply and divide instructions and the branches (41 to 45, 47): the value each
writes, and that it writes nothing else. -/

namespace Sys2Proof.Machine

/-! ### Sums and differences (41_alu_register R91 to R93; 45_alu_immediate R119, R124) -/

theorem exec_addu (rd rs rt : Reg) (s : State) : exec (.addu rd rs rt) s = .next (s.setX rd (s.x rs + s.x rt)) := rfl
theorem exec_sub (rd rs rt : Reg) (s : State) : exec (.sub rd rs rt) s = .next (s.setX rd (s.x rs - s.x rt)) := rfl
theorem exec_subu (rd rs rt : Reg) (s : State) : exec (.subu rd rs rt) s = .next (s.setX rd (s.x rs - s.x rt)) := rfl
theorem exec_addiu (rt rs : Reg) (imm : BitVec 16) (s : State) :
    exec (.addiu rt rs imm) s = .next (s.setX rt (s.x rs + sext16 imm)) := rfl
theorem exec_lui (rt : Reg) (imm : BitVec 16) (s : State) : exec (.lui rt imm) s = .next (s.setX rt (upperImmediate imm)) := rfl

/-- Subtraction of words is that of integers, modulo 2^32. -/
theorem toNat_sub_eq_emod (a b : Word) : ((a - b).toNat : Int) = (a.toNat - b.toNat : Int) % 2 ^ 32 := by
  have ha := a.isLt
  have hb := b.isLt
  rw [BitVec.toNat_sub]
  omega

/-- Settles O7: each is one register write, of the sum or of the difference. -/
theorem addUnsignedAndSubtractWrapWithoutTrap : Obligations.AddUnsignedAndSubtractWrapWithoutTrap := by
  refine ⟨decodesR_addu, decodesR_sub, decodesR_subu, fun rd rs rt s => ?_⟩
  exact ⟨s.x rs + s.x rt, s.x rs - s.x rt, BitVec.toNat_add _ _, toNat_sub_eq_emod _ _,
    ⟨_, exec_addu rd rs rt s, s.setX_writesGpr rd _⟩, ⟨_, exec_sub rd rs rt s, s.setX_writesGpr rd _⟩,
    ⟨_, exec_subu rd rs rt s, s.setX_writesGpr rd _⟩⟩

theorem toNat_upperImmediate (imm : BitVec 16) : (upperImmediate imm).toNat = imm.toNat * 2 ^ 16 := by
  have himm := imm.isLt
  rw [upperImmediate, zext16, BitVec.toNat_shiftLeft, BitVec.toNat_setWidth, Nat.shiftLeft_eq]
  omega

/-- Settles O16: ADDIU adds the immediate's signed value, LUI shifts it without loss. -/
theorem addImmediateUnsignedAndUpperImmediate : Obligations.AddImmediateUnsignedAndUpperImmediate := by
  refine ⟨decodesOpcode_addiu, decodesOpcode_lui, fun rt rs imm s => ?_⟩
  exact ⟨s.x rs + sext16 imm, upperImmediate imm, by rw [toNat_add_eq_add_toInt, toInt_sext16], toNat_upperImmediate imm,
    ⟨_, exec_addiu rt rs imm s, s.setX_writesGpr rt _⟩, ⟨_, exec_lui rt imm s, s.setX_writesGpr rt _⟩⟩

/-! ### Logic (41_alu_register R94 to R97; 45_alu_immediate R120 to R122) -/

theorem exec_and (rd rs rt : Reg) (s : State) : exec (.and rd rs rt) s = .next (s.setX rd (s.x rs &&& s.x rt)) := rfl
theorem exec_or (rd rs rt : Reg) (s : State) : exec (.or rd rs rt) s = .next (s.setX rd (s.x rs ||| s.x rt)) := rfl
theorem exec_nor (rd rs rt : Reg) (s : State) : exec (.nor rd rs rt) s = .next (s.setX rd (~~~(s.x rs ||| s.x rt))) := rfl
theorem exec_xor (rd rs rt : Reg) (s : State) : exec (.xor rd rs rt) s = .next (s.setX rd (s.x rs ^^^ s.x rt)) := rfl

/-- Settles O8: each is one register write of the bitwise function. -/
theorem logicIsBitwise : Obligations.LogicIsBitwise := by
  refine ⟨decodesR_and, decodesR_or, decodesR_nor, decodesR_xor, fun rd rs rt s => ?_⟩
  exact ⟨s.x rs &&& s.x rt, s.x rs ||| s.x rt, ~~~(s.x rs ||| s.x rt), s.x rs ^^^ s.x rt, fun k hk => by simp [hk],
    ⟨_, exec_and rd rs rt s, s.setX_writesGpr rd _⟩, ⟨_, exec_or rd rs rt s, s.setX_writesGpr rd _⟩,
    ⟨_, exec_nor rd rs rt s, s.setX_writesGpr rd _⟩, ⟨_, exec_xor rd rs rt s, s.setX_writesGpr rd _⟩⟩

section
variable (rt rs : Reg) (imm : BitVec 16) (s : State)

theorem exec_andi : exec (.andi rt rs imm) s = .next (s.setX rt (s.x rs &&& zext16 imm)) := rfl
theorem exec_ori : exec (.ori rt rs imm) s = .next (s.setX rt (s.x rs ||| zext16 imm)) := rfl
theorem exec_xori : exec (.xori rt rs imm) s = .next (s.setX rt (s.x rs ^^^ zext16 imm)) := rfl
theorem exec_slti : exec (.slti rt rs imm) s = .next (s.setX rt (setOnLess (s.x rs) (sext16 imm))) := rfl

end

/-- The immediate's bits from 16 up count as 0. -/
theorem getLsbD_zext16 (imm : BitVec 16) {k : Nat} (hk : k < 32) :
    (zext16 imm).getLsbD k = (decide (k < 16) && imm.getLsbD k) := by
  by_cases h : k < 16
  · simp [zext16, hk, h]
  · simp [zext16, h, BitVec.getLsbD_of_ge imm k (by omega)]

/-- Settles O17: each is one register write of the bitwise function of the register and the extended immediate. -/
theorem logicImmediateZeroExtends : Obligations.LogicImmediateZeroExtends := by
  refine ⟨decodesOpcode_andi, decodesOpcode_ori, decodesOpcode_xori, fun rt rs imm s => ?_⟩
  refine ⟨s.x rs &&& zext16 imm, s.x rs ||| zext16 imm, s.x rs ^^^ zext16 imm, fun k hk => ?_,
    ⟨_, exec_andi rt rs imm s, s.setX_writesGpr rt _⟩, ⟨_, exec_ori rt rs imm s, s.setX_writesGpr rt _⟩,
    ⟨_, exec_xori rt rs imm s, s.setX_writesGpr rt _⟩⟩
  rw [BitVec.getLsbD_and, BitVec.getLsbD_or, BitVec.getLsbD_xor, getLsbD_zext16 imm hk]
  exact ⟨rfl, rfl, rfl⟩

/-! ### Comparison (41_alu_register R98; 45_alu_immediate R123) -/

theorem setOnLess_eq (a b : Word) : setOnLess a b = if a.toInt < b.toInt then 1#32 else 0#32 := by
  by_cases h : a.toInt < b.toInt <;> simp [setOnLess, signedLess, signed, h]

theorem exec_slt (rd rs rt : Reg) (s : State) : exec (.slt rd rs rt) s = .next (s.setX rd (setOnLess (s.x rs) (s.x rt))) := rfl

/-- Settles O9: each is one register write of the comparison's result. -/
theorem setOnLessIsSigned : Obligations.SetOnLessIsSigned := by
  refine ⟨decodesR_slt, decodesOpcode_slti, fun rd rs rt s => ⟨_, exec_slt rd rs rt s, ?_⟩,
    fun rt rs imm s => ⟨_, exec_slti rt rs imm s, ?_⟩⟩
  · rw [← setOnLess_eq]; exact s.setX_writesGpr rd _
  · rw [← toInt_sext16 imm, ← setOnLess_eq]; exact s.setX_writesGpr rt _

/-! ### Shifts (42_shifts R100 to R102) -/

section
variable (rd rt : Reg) (shamt : BitVec 5) (s : State)

theorem exec_sll : exec (.sll rd rt shamt) s = .next (s.setX rd (s.x rt <<< shamt.toNat)) := rfl
theorem exec_srl : exec (.srl rd rt shamt) s = .next (s.setX rd (s.x rt >>> shamt.toNat)) := rfl
theorem exec_sra : exec (.sra rd rt shamt) s = .next (s.setX rd ((s.x rt).sshiftRight shamt.toNat)) := rfl

end

/-- The arithmetic shift is division by a power of two, rounded down. -/
theorem toInt_sshiftRight_eq_fdiv (a : Word) (n : Nat) : (a.sshiftRight n).toInt = Int.fdiv a.toInt (2 ^ n) := by
  rw [BitVec.toInt_sshiftRight, Int.shiftRight_eq_div_pow, Int.fdiv_eq_ediv_of_nonneg _ (by positivity)]
  norm_cast

/-- Settles O10: each is one register write of the scaled value. -/
theorem shiftsScaleByPowersOfTwo : Obligations.ShiftsScaleByPowersOfTwo := by
  refine ⟨decodesR_sll, decodesR_srl, decodesR_sra, fun rd rt shamt s => ?_⟩
  refine ⟨s.x rt <<< shamt.toNat, s.x rt >>> shamt.toNat, (s.x rt).sshiftRight shamt.toNat, ?_, ?_,
    toInt_sshiftRight_eq_fdiv _ _, ⟨_, exec_sll rd rt shamt s, s.setX_writesGpr rd _⟩,
    ⟨_, exec_srl rd rt shamt s, s.setX_writesGpr rd _⟩, ⟨_, exec_sra rd rt shamt s, s.setX_writesGpr rd _⟩⟩
  · rw [BitVec.toNat_shiftLeft, Nat.shiftLeft_eq]
  · rw [BitVec.toNat_ushiftRight, Nat.shiftRight_eq_div_pow]

/-! ### Writes to HI and LO (43_muldiv_hilo R105 to R112) -/

/-- Writing `HI` and `LO` is the whole effect. -/
theorem State.setLo_setHi_writesNoGpr (s : State) (hi lo : Word) :
    WritesNoGpr s hi lo s.nxt.bd s.diag ((s.setHi hi).setLo lo) :=
  ⟨⟨rfl, rfl, rfl, rfl, rfl⟩, fun _ => rfl, rfl, rfl, rfl, rfl, rfl, rfl⟩

theorem exec_mult (rs rt : Reg) (s : State) : exec (.mult rs rt) s = .next (s.setProduct (signedProduct (s.x rs) (s.x rt))) := rfl
theorem exec_multu (rs rt : Reg) (s : State) :
    exec (.multu rs rt) s = .next (s.setProduct (unsignedProduct (s.x rs) (s.x rt))) := rfl

/-- The two halves of a 64-bit pattern are the pattern. -/
theorem toNat_halves (p : DoubleWord) : (p.extractLsb' 32 32).toNat * 2 ^ 32 + (p.extractLsb' 0 32).toNat = p.toNat := by
  have hp := p.isLt
  rw [BitVec.extractLsb'_toNat, BitVec.extractLsb'_toNat, Nat.shiftRight_eq_div_pow, Nat.shiftRight_zero]
  omega

theorem toNat_signedProduct (a b : Word) : ((signedProduct a b).toNat : Int) = (a.toInt * b.toInt) % 2 ^ 64 := by
  rw [signedProduct, BitVec.toNat_ofInt, Int.toNat_of_nonneg (Int.emod_nonneg _ (by decide))]
  rfl

/-- A product of two words has at most 64 bits. -/
theorem toNat_unsignedProduct (a b : Word) : (unsignedProduct a b).toNat = a.toNat * b.toNat := by
  rw [unsignedProduct, BitVec.toNat_ofNat]
  exact Nat.mod_eq_of_lt ((Nat.mul_lt_mul'' a.isLt b.isLt).trans_eq (by norm_num))

/-- Settles O11: `HI` and `LO` take the two halves of the product. -/
theorem productFillsHiAndLo : Obligations.ProductFillsHiAndLo := by
  refine ⟨decodesR_mult, decodesR_multu, fun rs rt s => ⟨⟨_, _, _, exec_mult rs rt s, ?_, s.setLo_setHi_writesNoGpr _ _⟩,
    ⟨_, _, _, exec_multu rs rt s, ?_, s.setLo_setHi_writesNoGpr _ _⟩⟩⟩
  · rw [toNat_halves, toNat_signedProduct]
  · rw [toNat_halves, toNat_unsignedProduct]

theorem exec_div (rs rt : Reg) (s : State) : exec (.div rs rt) s =
    .next (s.divide (s.x rt) (signedQuotient (s.x rs) (s.x rt)) (signedRemainder (s.x rs) (s.x rt))) := rfl
theorem exec_divu (rs rt : Reg) (s : State) : exec (.divu rs rt) s =
    .next (s.divide (s.x rt) (unsignedQuotient (s.x rs) (s.x rt)) (unsignedRemainder (s.x rs) (s.x rt))) := rfl

theorem State.divide_writesNoGpr (s : State) {d : Word} (q r : Word) (h : d ≠ 0#32) :
    WritesNoGpr s r q s.nxt.bd s.diag (s.divide d q r) := by
  rw [State.divide_nonzero s q r h]
  exact s.setLo_setHi_writesNoGpr r q

theorem State.divide_reports (s : State) {d : Word} (q r : Word) (h : d = 0#32) :
    WritesNoGpr s s.nxt.hi s.nxt.lo s.nxt.bd .divideByZero (s.divide d q r) := by
  rw [h, State.divide_by_zero]
  exact s.report_writesNoGpr _

theorem toInt_ne_zero {d : Word} (h : d ≠ 0#32) : d.toInt ≠ 0 := fun h0 => h (BitVec.eq_of_toInt_eq (by simpa using h0))

/-- The remainder of division toward zero is zero or has the dividend's sign (R107). -/
theorem tmod_sign (a b : Int) : Int.tmod a b = 0 ∨ (Int.tmod a b < 0 ↔ a < 0) := by
  obtain ha | ha := le_or_gt 0 a
  · have hr := Int.tmod_nonneg b ha
    exact .inr ⟨fun h => absurd hr (not_le.mpr h), fun h => absurd ha (not_le.mpr h)⟩
  · have hr := Int.tmod_nonneg b (Int.neg_nonneg.mpr ha.le)
    rw [Int.neg_tmod] at hr
    omega

theorem abs_tmod_lt (a : Int) {b : Int} (h : b ≠ 0) : |Int.tmod a b| < |b| := by
  rw [Int.abs_eq_natAbs, Int.abs_eq_natAbs, Int.natAbs_tmod]
  exact_mod_cast Nat.mod_lt _ (Int.natAbs_pos.mpr h)

theorem signedRemainder_eq_tmod (a b : Word) : signedRemainder a b = BitVec.ofInt 32 (Int.tmod a.toInt b.toInt) := by
  rw [signedRemainder, signed, signed, Int.tmod_def, Int.mul_comm]

/-- Settles O12: the quotient is that of division toward zero, whose remainder has the dividend's sign. -/
theorem signedDivisionTruncates : Obligations.SignedDivisionTruncates := by
  refine ⟨decodesR_div, fun rs rt s => ⟨_, exec_div rs rt s, s.divide_reports _ _, fun hne => ?_⟩⟩
  refine ⟨Int.tdiv (s.x rs).toInt (s.x rt).toInt, Int.tmod (s.x rs).toInt (s.x rt).toInt, ?_, ?_, tmod_sign _ _, ?_⟩
  · exact (Int.tdiv_mul_add_tmod _ _).symm
  · exact abs_tmod_lt _ (toInt_ne_zero hne)
  · rw [← signedRemainder_eq_tmod]
    exact s.divide_writesNoGpr _ _ hne

theorem toNat_unsignedQuotient (a b : Word) : (unsignedQuotient a b).toNat = a.toNat / b.toNat := by
  rw [unsignedQuotient, BitVec.toNat_ofNat]
  exact Nat.mod_eq_of_lt (Nat.lt_of_le_of_lt (Nat.div_le_self _ _) a.isLt)

theorem toNat_unsignedRemainder (a b : Word) : (unsignedRemainder a b).toNat = a.toNat % b.toNat := by
  have hle : a.toNat / b.toNat * b.toNat ≤ a.toNat := Nat.div_mul_le_self _ _
  have hmul : (unsignedQuotient a b * b).toNat = a.toNat / b.toNat * b.toNat := by
    rw [BitVec.toNat_mul, toNat_unsignedQuotient]
    exact Nat.mod_eq_of_lt (Nat.lt_of_le_of_lt hle a.isLt)
  rw [unsignedRemainder, BitVec.toNat_sub_of_le (by rw [BitVec.le_def, hmul]; exact hle), hmul, Nat.mod_eq_sub_div_mul]

/-- Settles O13: `LO` and `HI` hold the quotient and the remainder of the natural numbers. -/
theorem unsignedDivisionRoundsDown : Obligations.UnsignedDivisionRoundsDown := by
  refine ⟨decodesR_divu, fun rs rt s => ⟨_, exec_divu rs rt s, s.divide_reports _ _, fun hne => ?_⟩⟩
  have hpos : 0 < (s.x rt).toNat := Nat.pos_of_ne_zero fun h0 => hne (BitVec.eq_of_toNat_eq h0)
  refine ⟨_, _, ?_, ?_, s.divide_writesNoGpr _ _ hne⟩
  · rw [toNat_unsignedQuotient, toNat_unsignedRemainder, Nat.mul_comm, Nat.div_add_mod]
  · rw [toNat_unsignedRemainder]; exact Nat.mod_lt _ hpos

theorem exec_mfhi (rd : Reg) (s : State) : exec (.mfhi rd) s = .next (s.setX rd s.cur.hi) := rfl
theorem exec_mflo (rd : Reg) (s : State) : exec (.mflo rd) s = .next (s.setX rd s.cur.lo) := rfl
theorem exec_mthi (rs : Reg) (s : State) : exec (.mthi rs) s = .next (s.setHi (s.x rs)) := rfl
theorem exec_mtlo (rs : Reg) (s : State) : exec (.mtlo rs) s = .next (s.setLo (s.x rs)) := rfl

/-- Settles O14: MFHI and MFLO are register writes, MTHI and MTLO write one of the pair. -/
theorem hiLoMovesCopy : Obligations.HiLoMovesCopy :=
  ⟨decodesR_mfhi, decodesR_mflo, decodesR_mthi, decodesR_mtlo, fun r s =>
    ⟨⟨_, exec_mfhi r s, s.setX_writesGpr r _⟩, ⟨_, exec_mflo r s, s.setX_writesGpr r _⟩,
     ⟨_, exec_mthi r s, s.setLo_setHi_writesNoGpr (s.x r) s.nxt.lo⟩,
     ⟨_, exec_mtlo r s, s.setLo_setHi_writesNoGpr s.nxt.hi (s.x r)⟩⟩⟩

/-! ### Jump register (44_jump_register R115, R116) and branches (47_branch_jump R136 to R142) -/

theorem exec_jr (rs : Reg) (s : State) : exec (.jr rs) s = .next (s.stage (s.x rs)) := rfl

/-- Settles O15: both stage the register's value, and JALR's one register write is the link. -/
theorem jumpRegisterStagesAndLinks : Obligations.JumpRegisterStagesAndLinks :=
  ⟨decodesR_jr, decodesR_jalr, fun rs s => ⟨_, exec_jr rs s, s.stage_writesNoGpr _⟩,
   fun rd rs s => ⟨_, linkAddress s.pc, exec_jalr rd rs s, toNat_linkAddress s.pc, s.stage_setX_writesGpr _ rd _⟩⟩

/-- The target is the delay slot's address plus the displacement in words, modulo 2^32 (R136). -/
theorem toNat_branchTarget (pc : Word) (imm : BitVec 16) :
    ((branchTarget pc imm).toNat : Int) = (pc.toNat + 4 + 4 * imm.toInt) % 2 ^ 32 := by
  have hpc : (pc + 4#32).toNat = (pc.toNat + 4) % 2 ^ 32 := BitVec.toNat_add pc 4#32
  rw [branchTarget, BitVec.toNat_add, BitVec.toNat_shiftLeft, Nat.shiftLeft_eq, hpc, ← toInt_sext16 imm,
    BitVec.toInt_eq_toNat_cond]
  split <;> omega

/-- A branch whose condition decides `taken` stages its target when it holds, and else writes nothing. -/
theorem State.branchIf_branchesWhen (s : State) (imm : BitVec 16) (taken : Prop) [Decidable taken] :
    BranchesWhen s imm taken (s.branchIf (decide taken) imm) := by
  refine ⟨fun h => ⟨branchTarget s.pc imm, toNat_branchTarget _ _, ?_⟩, fun h => ?_⟩
  · rw [decide_eq_true h, State.branchIf_taken]; exact s.stage_writesNoGpr _
  · rw [decide_eq_false h, State.branchIf_not_taken]; exact s.writesNothing_self

/-- Settles O21: each branch is `State.branchIf` with its condition. -/
theorem branchesStageTheirTarget : Obligations.BranchesStageTheirTarget := by
  refine ⟨decodesOpcode_beq, decodesOpcode_bne, decodesOpcode_bgtz, decodesOpcode_blez, fun w => decode_bgez,
    fun w => decode_bltz, fun rs rt imm s => ?_⟩
  exact ⟨⟨_, rfl, s.branchIf_branchesWhen imm _⟩, ⟨_, rfl, s.branchIf_branchesWhen imm _⟩,
    ⟨_, rfl, s.branchIf_branchesWhen imm _⟩, ⟨_, rfl, s.branchIf_branchesWhen imm _⟩,
    ⟨_, rfl, s.branchIf_branchesWhen imm _⟩, ⟨_, rfl, s.branchIf_branchesWhen imm _⟩⟩

end Sys2Proof.Machine
end

section
/-! PROOFS about the invariant and the host interface (10_state, 40_cycle_driver R77 to R87, 70_reset_and_hazards): every step and
every host operation keeps the invariant, and what reset, stop, injection, the loader, a run and a boundary do. -/

namespace Sys2Proof.Machine

/-! ### The invariant under a step (10_state R17, R18, R22) -/

/-- Memory changes only by a word write with a mapped status. -/
theorem Effect.mem {i : Instr} {s t : State} (h : Effect i s t) :
    t.mem = s.mem ∨ ∃ a v, wordStatus s.config a = .ok ∧ t.mem = s.mem.setWord a.toNat v := by
  cases h with
  | stores a n v _ _ hok => exact .inr ⟨a, _, hok, rfl⟩
  | _ => exact .inl rfl

/-- The cycle's end restores the invariant where the execute phase kept the map and the form of memory. -/
theorem inv_finish {u : State} (hc : u.config.wf = true) (hm : u.mem.wf) (hin : u.mem.withinRegions u.config) :
    u.finish.Inv :=
  ⟨by rwa [u.finish_config], by rwa [u.finish_mem], by rwa [u.finish_mem, u.finish_config],
   u.finish_nxt.trans u.finish_cur.symm, u.finish_exit⟩

/-- Settles O58: the commit makes the snapshots agree, and the one effect on memory is a word write inside a region. -/
theorem stepKeepsTheInvariant : Obligations.StepKeepsTheInvariant := by
  intro s t hs h
  obtain ⟨-, rfl⟩ | ⟨-, -, rfl⟩ | ⟨-, rfl⟩ | ⟨i, u, hi, hu, rfl⟩ := step_cases h
  · exact ⟨hs, rfl⟩
  · exact ⟨inv_finish hs.configWf hs.memWf hs.memMapped, State.finish_config _⟩
  · exact ⟨inv_finish hs.configWf hs.memWf hs.memMapped, State.finish_config _⟩
  · have he := exec_effect hu
    have hc : u.config = s.config := he.driverKept.config
    refine ⟨?_, u.finish_config.trans hc⟩
    obtain hmem | ⟨a, v, hok, hmem⟩ := he.mem
    · exact inv_finish (hc ▸ hs.configWf) (hmem ▸ hs.memWf) (by rw [hmem, hc]; exact hs.memMapped)
    · exact inv_finish (hc ▸ hs.configWf) (hmem ▸ Memory.wf_setWord hs.memWf _ _)
        (by rw [hmem, hc]; exact Memory.within_setWord hs.memMapped hok v)

/-! ### The invariant under the host's operations (40_cycle_driver R82 to R87) -/

theorem resetWith_inv {c : Config} (hc : c.wf = true) : (State.resetWith c).Inv :=
  ⟨hc, ⟨List.Pairwise.nil, by simp [State.resetWith]⟩, by simp [State.resetWith], rfl, rfl⟩

/-- Settles O59: after reset memory is empty and the snapshots are the same. -/
theorem invariantAtReset : Obligations.InvariantAtReset :=
  ⟨fun _ => resetWith_inv, resetWith_inv (by decide)⟩

section
variable {s : State} (h : s.Inv)
include h

theorem State.Inv.hostStop : s.hostStop.Inv :=
  ⟨h.configWf, h.memWf, h.memMapped, h.snapshotsAgree, h.noExit⟩

theorem State.Inv.stopIf (stop : Bool) : (s.stopIf stop).Inv := by
  cases stop
  · exact h
  · exact h.hostStop

theorem State.Inv.hostInject (j : Injection) : (s.hostInject j).Inv :=
  ⟨h.configWf, h.memWf, h.memMapped, congrArg (Snapshot.inject · j) h.snapshotsAgree, h.noExit⟩

theorem State.Inv.hostWriteWord (a v : Word) : (s.hostWriteWord a v).2.Inv :=
  ⟨h.configWf, wf_writeWord h.memWf s.config a v, within_writeWord h.memMapped a v, h.snapshotsAgree, h.noExit⟩

theorem State.Inv.loadFrom (a : Word) (ws : List Word) : (s.loadFrom a ws).Inv := by
  induction ws generalizing s a with
  | nil => exact h
  | cons w ws ih => exact ih (h.hostWriteWord a w) (a + 4#32)

theorem State.Inv.takeRequests (q : Requests) : (s.takeRequests q).Inv :=
  List.foldlRecOn q.writes _
    (List.foldlRecOn q.injections _ (h.stopIf q.stop) fun _ hu j _ => hu.hostInject j)
    fun _ hu w _ => hu.hostWriteWord w.1 w.2

end

/-- Settles O60: each operation by itself, and a boundary as their composition. -/
theorem hostOperationsKeepTheInvariant : Obligations.HostOperationsKeepTheInvariant := by
  refine fun s h => ⟨resetWith_inv h.configWf, h.hostStop, h.hostInject, h.hostWriteWord, h.loadFrom s.config.textBegin,
    fun q t ht => ?_⟩
  unfold State.serve at ht
  split at ht
  · cases ht; exact resetWith_inv h.configWf
  · split at ht
    · exact (stepKeepsTheInvariant _ t (h.takeRequests q) ht).1
    · cases ht; exact h.takeRequests q

/-! ### A placed word (log 21) -/

theorem fetchable_iff {c : Config} {a : Word} : fetchable c a = true ↔ isAligned a = true ∧ wordStatus c a = .ok := by
  simp [fetchable]

/-- The text region has room for a word at its base. -/
theorem fetchable_textBegin {c : Config} (hc : c.wf = true) : fetchable c c.textBegin = true := by
  obtain ⟨r, hr, hbase⟩ := textRegion_of_wf hc
  obtain ⟨-, hsize, hpos, -⟩ := region_of_wf hc hr
  have hown : ownsAddress r c.textBegin.toNat = true := ownsAddress_iff.mpr (by omega)
  exact fetchable_iff.mpr ⟨isAligned_textBegin hc,
    wordStatus_of_region ((regionOf_eq_some_iff hc).mpr ⟨hr, hown⟩) (by omega)⟩

theorem fetchable_placementPc {s : State} (hc : s.config.wf = true) : fetchable s.config s.placementPc = true := by
  unfold State.placementPc
  split
  · assumption
  · exact fetchable_textBegin hc

theorem fetches_placeWord {s : State} (h : s.Inv) (w : Word) : (s.placeWord w).fetches w := by
  obtain ⟨haligned, hok⟩ := fetchable_iff.mp (fetchable_placementPc h.configWf)
  refine ⟨⟨rfl, haligned⟩, ?_⟩
  rw [State.fetchedWord_of_ok (s := s.placeWord w) hok]
  exact congrArg some (Memory.word_setWord h.memWf _ w)

theorem tableWord_toNat (w : Word) : tableWord 32 w.toNat = w := by
  rw [tableWord, Nat.mod_eq_of_lt w.isLt, BitVec.ofNat_toNat, BitVec.setWidth_eq]

/-- Settles O57: the placement's address can be fetched, and holds the word. -/
theorem placedWordIsExecutedNext : Obligations.PlacedWordIsExecutedNext := by
  intro s w h
  have hf : (s.withFetchWord 32 w.toNat).fetches w := by
    rw [State.withFetchWord, tableWord_toNat]
    exact fetches_placeWord h w
  exact ⟨hf, fun i hd => ⟨w, hf, hd⟩⟩

/-! ### Stop, reset and injection (R82 to R84) -/

theorem State.hostStop_of_halted {s : State} (h : s.run = .halted) : s.hostStop = s := by
  cases s; cases h; rfl

/-- Settles O51: a stop is one field's update. -/
theorem stopChangesOnlyTheRunState : Obligations.StopChangesOnlyTheRunState :=
  fun _ => ⟨rfl, rfl, State.hostStop_of_halted, step_of_halted rfl⟩

theorem Memory.word_empty (a : Nat) : (Memory.mk []).word a = 0#32 := by
  simp only [Memory.word, Memory.byte_empty]
  decide

/-- Settles O53: the reset state does not depend on the state but for the parameters. -/
theorem resetValues : Obligations.ResetValues := by
  refine fun s => ⟨rfl, rfl, rfl, Snapshot.reset_reg s.config, rfl, rfl, rfl, rfl, rfl, rfl, fun _ => rfl, fun a ha => ?_⟩
  rw [State.hostReadWord, State.hostReset_config, State.hostReset_mem, readWord_ok _ ha, Memory.word_empty]

/-- Settles O54: an injection is the same element's write in each snapshot. -/
theorem injectionWritesOneElement : Obligations.InjectionWritesOneElement :=
  fun s v => ⟨fun i => ⟨_, rfl, s.cur.reg_setReg_same i v, s.nxt.reg_setReg_same i v,
    fun _ hj => ⟨s.cur.reg_setReg_ne v hj, s.nxt.reg_setReg_ne v hj⟩, rfl⟩, rfl, rfl⟩

/-! ### Requests at one boundary (R87) -/

theorem foldl_hostInject (js : List Injection) (s : State) : js.foldl State.hostInject s =
    { s with cur := js.foldl Snapshot.inject s.cur, nxt := js.foldl Snapshot.inject s.nxt } := by
  induction js generalizing s with
  | nil => rfl
  | cons j js ih => exact ih (s.hostInject j)

theorem foldl_hostWriteWord (ws : List (Word × Word)) (s : State) :
    ws.foldl (fun u w => (u.hostWriteWord w.1 w.2).2) s =
      s.setMem (ws.foldl (fun m w => (writeWord s.config m w.1 w.2).2) s.mem) := by
  induction ws generalizing s with
  | nil => rfl
  | cons w ws ih => exact ih (s.hostWriteWord w.1 w.2).2

/-- What the stop, the injections and the writes of one boundary leave. -/
theorem State.takeRequests_eq (s : State) (q : Requests) : s.takeRequests q =
    { s with run := if q.stop then .halted else s.run,
             cur := q.injections.foldl Snapshot.inject s.cur, nxt := q.injections.foldl Snapshot.inject s.nxt,
             mem := q.writes.foldl (fun m w => (writeWord s.config m w.1 w.2).2) s.mem } := by
  rw [State.takeRequests, foldl_hostWriteWord, foldl_hostInject]
  cases q.stop <;> rfl

theorem Snapshot.inject_keeps (p : Snapshot) (j : Injection) : (p.inject j).pc = p.pc ∧ (p.inject j).bd = p.bd := by
  obtain ⟨target, v⟩ := j
  cases target <;> exact ⟨rfl, rfl⟩

/-- No injection reaches `PC` or the pending-branch slot (R84). -/
theorem foldl_inject_keeps (js : List Injection) (p : Snapshot) :
    (js.foldl Snapshot.inject p).pc = p.pc ∧ (js.foldl Snapshot.inject p).bd = p.bd :=
  List.foldlRecOn (motive := fun q : Snapshot => q.pc = p.pc ∧ q.bd = p.bd) js _ ⟨rfl, rfl⟩ fun q ⟨hpc, hbd⟩ j _ =>
    ⟨(q.inject_keeps j).1.trans hpc, (q.inject_keeps j).2.trans hbd⟩

theorem State.serve_of_reset {q : Requests} (h : q.reset = true) (s : State) : s.serve q = .next s.hostReset := by
  simp [State.serve, h]

theorem State.serve_of_no_reset {q : Requests} (h : q.reset = false) (s : State) :
    s.serve q = if q.step then step (s.takeRequests q) else .next (s.takeRequests q) := by
  simp [State.serve, h]

/-- Requests that leave the core halted end in the state they leave, whether or not a step is among them. -/
theorem State.serve_of_halted {s : State} {q : Requests} (h : q.reset = false) (hh : (s.takeRequests q).run = .halted) :
    s.serve q = .next (s.takeRequests q) := by
  rw [State.serve_of_no_reset h, step_of_halted hh, ite_self]

/-- Settles O56: the classes act on disjoint parts of the state, and the step comes last. -/
theorem boundaryOrderOfRequests : Obligations.BoundaryOrderOfRequests := by
  refine fun s q => ⟨fun h => s.serve_of_reset h, fun h u hu => ?_⟩
  have htake : s.takeRequests q = u := (s.takeRequests_eq q).trans hu.symm
  obtain ⟨hpc, hbd⟩ := foldl_inject_keeps q.injections s.cur
  refine ⟨by rw [hu], by rw [hu]; exact hpc, by rw [hu]; exact hbd, htake ▸ s.serve_of_no_reset h, fun hstop => ?_⟩
  rw [← htake]
  exact State.serve_of_halted h (by simp [State.takeRequests_eq, hstop])

/-- Settles O52: of the requests only a reset writes RUNNING. -/
theorem haltedIsLeftOnlyByReset : Obligations.HaltedIsLeftOnlyByReset := by
  refine fun s hs => ⟨step_of_halted hs, fun q => ⟨fun h => ?_, fun h => ⟨_, s.serve_of_reset h, rfl⟩⟩⟩
  have hrun : (s.takeRequests q).run = .halted := by simp [State.takeRequests_eq, hs]
  exact ⟨_, State.serve_of_halted h hrun, hrun⟩

/-! ### Runs (R80, R81) -/

/-- A run goes on from where a shorter one ends. -/
theorem State.runUnder_append {s t : State} {stops : List Bool} (h : s.runUnder stops = .next t) (more : List Bool) :
    s.runUnder (stops ++ more) = t.runUnder more := by
  induction stops generalizing s with
  | nil => cases h; rfl
  | cons stop stops ih =>
    obtain ⟨rfl, rfl⟩ | ⟨-, hr, rfl⟩ | ⟨rfl, hr, u, hu, ht⟩ := State.runUnder_cases h
    · rw [List.cons_append, State.runUnder_stop, State.runUnder_of_halted rfl]
    · rw [State.runUnder_of_halted hr, State.runUnder_of_halted hr]
    · rw [List.cons_append, State.runUnder_of_step hr hu, ih ht]

theorem State.runFor_add {s t : State} {m : Nat} (h : s.runFor m = .next t) (n : Nat) : s.runFor (m + n) = t.runFor n := by
  rw [State.runFor, List.replicate_add, State.runUnder_append h]
  rfl

theorem State.runFor_of_halted {s : State} (h : s.run = .halted) (n : Nat) : s.runFor n = .next s :=
  State.runUnder_of_halted h _

theorem State.runFor_one (s : State) : s.runFor 1 = step s := by
  cases hr : s.run with
  | halted => rw [State.runFor_of_halted hr, step_of_halted hr]
  | running => cases hs : step s <;> simp [State.runFor, State.runUnder, hr, hs]

/-- A run that has halted is every longer run. -/
theorem State.runFor_add_of_halted {s t : State} {m : Nat} (h : s.runFor m = .next t) (ht : t.run = .halted) (n : Nat) :
    s.runFor (m + n) = .next t := by
  rw [State.runFor_add h, State.runFor_of_halted ht]

/-- Settles O50: two runs that completed are both the run of the sum of their lengths. -/
theorem runStopsEarlyWhenHalted : Obligations.RunStopsEarlyWhenHalted := by
  refine ⟨fun s => ⟨rfl, s.runFor_one⟩,
    fun s t m n h => ⟨State.runFor_add h n, fun ht => State.runFor_add_of_halted h ht n⟩, ?_⟩
  rintro s t u ⟨m, hm, ht⟩ ⟨n, hn, hu⟩
  have hmn := State.runFor_add_of_halted hm ht n
  rw [Nat.add_comm, State.runFor_add_of_halted hn hu m] at hmn
  exact (Host.Outcome.next.inj hmn).symm

/-! ### The loader (R86, 70_reset_and_hazards R167) -/

theorem State.loadFrom_config (s : State) (a : Word) (ws : List Word) : (s.loadFrom a ws).config = s.config := by
  induction ws generalizing s a with
  | nil => rfl
  | cons w ws ih => exact ih (s.hostWriteWord a w).2 (a + 4#32)

/-- The address of word `k + 1` from `a` is that of word `k` from the next address. -/
theorem nextWord_add (a : Word) (k : Nat) : a + 4#32 + BitVec.ofNat 32 (4 * k) = a + BitVec.ofNat 32 (4 * (k + 1)) := by
  rw [BitVec.add_assoc, ← BitVec.ofNat_add, Nat.mul_succ, Nat.add_comm 4]

theorem byte_writeWord_outside {c : Config} (m : Memory) {a : Word} {b : Nat} (v : Word) (h : b < a.toNat ∨ a.toNat + 4 ≤ b) :
    (writeWord c m a v).2.byte b = m.byte b := by
  cases hs : wordStatus c a with
  | ok => rw [writeWord_ok m v hs]; exact Memory.byte_setWord_outside m v h
  | unmapped => rw [writeWord_unmapped m v hs]
  | span => rw [writeWord_span m v hs]

/-- Loading leaves every byte outside the words alone. -/
theorem State.loadFrom_outside {s : State} {a : Word} {ws : List Word} {b : Nat}
    (h : ∀ k, k < ws.length → b < (a + BitVec.ofNat 32 (4 * k)).toNat ∨ (a + BitVec.ofNat 32 (4 * k)).toNat + 4 ≤ b) :
    (s.loadFrom a ws).mem.byte b = s.mem.byte b := by
  induction ws generalizing s a with
  | nil => rfl
  | cons w ws ih =>
    have hrest := ih (s := (s.hostWriteWord a w).2) (a := a + 4#32) fun k hk => by
      rw [nextWord_add]; exact h (k + 1) (by simpa using hk)
    exact hrest.trans (byte_writeWord_outside s.mem w (by simpa using h 0 (by simp)))

theorem Memory.word_congr {m m' : Memory} {a : Nat} (h : ∀ j, j < 4 → m'.byte (a + j) = m.byte (a + j)) :
    m'.word a = m.word a := by
  have h0 : m'.byte a = m.byte a := h 0 (by decide)
  rw [Memory.word, Memory.word, h0, h 1 (by decide), h 2 (by decide), h 3 (by decide)]

/-- Of fewer than 2^30 words from an aligned address no later one overlaps the first, even where the addresses wrap. -/
theorem laterWord_outside {a : Word} (ha : isAligned a = true) {k j : Nat} (hk : k + 1 < 2 ^ 30) (hj : j < 4) :
    a.toNat + j < (a + 4#32 + BitVec.ofNat 32 (4 * k)).toNat ∨
    (a + 4#32 + BitVec.ofNat 32 (4 * k)).toNat + 4 ≤ a.toNat + j := by
  have hmod := isAligned_iff.mp ha
  have hlt := a.isLt
  rw [nextWord_add, BitVec.toNat_add, BitVec.toNat_ofNat]
  omega

/-- Loading places each word at its address. -/
theorem State.loadFrom_word {s : State} {a : Word} {ws : List Word} (hm : s.mem.wf) (ha : isAligned a = true)
    (hlen : ws.length < 2 ^ 30)
    (hok : ∀ k, k < ws.length → wordStatus s.config (a + BitVec.ofNat 32 (4 * k)) = .ok) {k : Nat} (hk : k < ws.length) :
    (s.loadFrom a ws).mem.word (a + BitVec.ofNat 32 (4 * k)).toNat = ws[k] := by
  induction ws generalizing s a k with
  | nil => cases hk
  | cons w ws ih =>
    rw [List.length_cons] at hlen hok hk
    cases k with
    | zero =>
      have hoka : wordStatus s.config a = .ok := by simpa using hok 0 (by omega)
      have hkept : ((s.hostWriteWord a w).2.loadFrom (a + 4#32) ws).mem.word a.toNat = (s.hostWriteWord a w).2.mem.word a.toNat :=
        Memory.word_congr fun j hj => State.loadFrom_outside fun k hk => laterWord_outside ha (by omega) hj
      have hwritten : (s.hostWriteWord a w).2.mem.word a.toNat = w := by
        rw [State.hostWriteWord, writeWord_ok _ _ hoka]
        exact Memory.word_setWord hm _ w
      rw [Nat.mul_zero, BitVec.add_zero]
      exact hkept.trans hwritten
    | succ k =>
      have hrest := ih (s := (s.hostWriteWord a w).2) (k := k) (wf_writeWord hm s.config a w) (isAligned_add_four ha) (by omega)
        (fun k hk => by rw [nextWord_add]; exact hok (k + 1) (by omega)) (by omega)
      rw [nextWord_add] at hrest
      exact hrest

/-- Settles O55: from the aligned text base the words lie side by side. -/
theorem loaderPlacesTheWords : Obligations.LoaderPlacesTheWords := by
  intro s ws address hs hlen haddress hok
  obtain rfl : address = fun k => s.config.textBegin + BitVec.ofNat 32 (4 * k) := funext haddress
  refine ⟨fun k hk => ?_, fun b hb => State.loadFrom_outside hb⟩
  rw [State.hostReadWord, State.hostLoad, State.loadFrom_config, readWord_ok _ (hok k hk)]
  exact congrArg ReadResult.ok (State.loadFrom_word hs.memWf (isAligned_textBegin hs.configWf) hlen hok hk)

end Sys2Proof.Machine
end
